-- ==== Sys2Proof/Word.lean ====
section
/-! DEFINITION. The Word of the machine and its truncation (00_scope R10, R16). -/

namespace Sys2Proof

/-- R16: "a 16-bit unsigned integer, the machine's native value size". -/
abbrev Word := BitVec 16

/-- R10: `wrap16(v) = v mod 65536` for any integer v, the result in [0, 65535] also for negative v. -/
def wrap16 (v : Int) : Word := BitVec.ofInt 16 v

end Sys2Proof
end

