-- ==== Sys2Proof/Machine/Flags.lean ====
section
/-! DEFINITION. The results, the EX values and the predicates of the instructions (41_arith_logic, 42_conditional): exact
integers, truncated at the end (R155). Each takes the operands in the order `b a`. -/

namespace Sys2Proof.Machine

/-- R142: `wrap16(b + a)`. -/
def addValue (b a : Word) : Word := wrap16 (b.toNat + a.toNat)

/-- R142: 1 if b + a > 0xFFFF else 0. -/
def addEx (b a : Word) : Word := if b.toNat + a.toNat > 0xFFFF then 1 else 0

/-- R143: `wrap16(b - a)`. -/
def subValue (b a : Word) : Word := wrap16 ((b.toNat : Int) - a.toNat)

/-- R143: 0xFFFF if b - a < 0 else 0. -/
def subEx (b a : Word) : Word := if (b.toNat : Int) - a.toNat < 0 then 0xFFFF else 0

/-- R144: `(b * a) mod 65536`. -/
def mulValue (b a : Word) : Word := wrap16 ((b.toNat * a.toNat : Nat) : Int)

/-- R144: `((b * a) >> 16) mod 65536`. -/
def mulEx (b a : Word) : Word := wrap16 (((b.toNat * a.toNat) >>> 16 : Nat) : Int)

/-- R145: `b / a`, 0 if a = 0. -/
def divValue (b a : Word) : Word := if a = 0 then 0 else wrap16 ((b.toNat / a.toNat : Nat) : Int)

/-- R145: `((b << 16) / a) mod 65536`, 0 if a = 0. -/
def divEx (b a : Word) : Word := if a = 0 then 0 else wrap16 (((b.toNat <<< 16) / a.toNat : Nat) : Int)

/-- R146: `b mod a`, 0 if a = 0. -/
def modValue (b a : Word) : Word := if a = 0 then 0 else wrap16 ((b.toNat % a.toNat : Nat) : Int)

/-- R147: `b & a`. -/
def andValue (b a : Word) : Word := b &&& a

/-- R148: `b | a`. -/
def borValue (b a : Word) : Word := b ||| a

/-- R149: `b ^ a`. -/
def xorValue (b a : Word) : Word := b ^^^ a

/-- R150: `(b << a) mod 65536`, the shift unbounded. -/
def shlValue (b a : Word) : Word := wrap16 ((b.toNat <<< a.toNat : Nat) : Int)

/-- R150: `((b << a) >> 16) mod 65536`. -/
def shlEx (b a : Word) : Word := wrap16 (((b.toNat <<< a.toNat) >>> 16 : Nat) : Int)

/-- R151: `b >> a`. -/
def shrValue (b a : Word) : Word := wrap16 ((b.toNat >>> a.toNat : Nat) : Int)

/-- R151: `((b << 16) >> a) mod 65536`. -/
def shrEx (b a : Word) : Word := wrap16 (((b.toNat <<< 16) >>> a.toNat : Nat) : Int)

/-- R181: `(b & a) != 0`. -/
def ifbHolds (b a : Word) : Bool := (b &&& a) != 0

/-- R182: `(b & a) = 0`. -/
def ifcHolds (b a : Word) : Bool := (b &&& a) == 0

/-- R183: `b = a`. -/
def ifeHolds (b a : Word) : Bool := b == a

/-- R184: `b != a`. -/
def ifnHolds (b a : Word) : Bool := b != a

/-- R185: `b > a`, unsigned. -/
def ifgHolds (b a : Word) : Bool := decide (b.toNat > a.toNat)

/-- R186: `b < a`, unsigned. -/
def iflHolds (b a : Word) : Bool := decide (b.toNat < a.toNat)

end Sys2Proof.Machine
end

