-- ==== Sys2Proof/Config.lean ====
section
/-! DEFINITION. The parameters the spec leaves to its reader (00_scope R8). No instruction of this hardware has an
undefined result, so there is no free value here: the one open parameter is P_HLT_OP, a field of `Config`, and a statement
about every `Config` holds for every value of it (log entry 3). The other parameters are named arguments of the functions
that they govern, which the step applies to the values that the spec decides (log entry 12). -/

namespace Sys2Proof

/-- R83: the discriminants that R82 leaves free, one of which may be the halt form's: 0x00, 0x02-0x07, 0x0D-0x0F, 0x13-0x1F. -/
def freeDiscriminants : List (BitVec 5) :=
  [0x00, 0x02, 0x03, 0x04, 0x05, 0x06, 0x07, 0x0D, 0x0E, 0x0F] ++
  [0x13, 0x14, 0x15, 0x16, 0x17, 0x18, 0x19, 0x1A, 0x1B, 0x1C, 0x1D, 0x1E, 0x1F]

/-- Whether R82 leaves a discriminant free (R83). -/
def isFreeDiscriminant (d : BitVec 5) : Bool := freeDiscriminants.contains d

/-- R83: a value of P_HLT_OP, "restricted to one of the values rule R82 leaves free". -/
structure HltOp where
  /-- The discriminant of the halt form. -/
  code : BitVec 5
  /-- It is one of the free values. -/
  free : isFreeDiscriminant code = true
  deriving DecidableEq, Repr

/-- The named arguments of the model. R83: "A model takes it as an argument"; `hltOp = none` is "a model that is not given
P_HLT_OP", for which every free discriminant is an InvalidOpcode and HLT cannot be encoded. DESIGN CHOICE (log entry 3): the
argument is carried in `State.config`, because the step has no other argument. -/
structure Config where
  /-- P_HLT_OP (R8, R83). -/
  hltOp : Option HltOp
  deriving DecidableEq, Repr

/-- The discriminant of HLT, where the parameter is given. -/
def Config.hltCode (c : Config) : Option (BitVec 5) := c.hltOp.map HltOp.code

/-- The operations that OPCODE_MAP numbers (R80). -/
inductive OrdinaryOp where
  | set | add | sub | mul | mli | div | dvi | mod | mdi | and | bor | xor | shr
  | asr | shl | ifb | ifc | ife | ifn | ifg | ifl | adx | sbx | sti | std
  deriving DecidableEq, Repr

/-- The operations that EXT_MAP numbers (R82): every extended form but the halt form, whose number is P_HLT_OP. -/
inductive ExtendedOp where
  | jsr | int | iag | ias | iap | iaq | hwn | hwq | hwi
  deriving DecidableEq, Repr

/-- The type of OPCODE_MAP (R8, D1): the primary opcode values and the operation each names. -/
abbrev OpcodeMap := List (BitVec 5 × OrdinaryOp)

/-- The type of EXT_MAP (R8, D2): the extended discriminants and the operation each names. -/
abbrev ExtMap := List (BitVec 5 × ExtendedOp)

/-- P_PEEK_BINDING (R8, R118): whether a peek's address is SP as it was at resolution, or SP at each get and set. -/
inductive PeekBinding where
  | atResolution
  | atGet
  deriving DecidableEq, Repr

/-- R118: "`P_PEEK_BINDING`, value `at_resolution`" (the spec's decision D5, log entry 5). -/
def Config.peekBinding : PeekBinding := .atResolution

/-- P_PUSH_READ (R8, R123): what reading a push Location gives. The spec names one value, the cell at its address. -/
inductive PushRead where
  | cell
  deriving DecidableEq, Repr

/-- R123: "`P_PUSH_READ`, value `cell`" (the spec's decision D6, log entry 5). -/
def Config.pushRead : PushRead := .cell

/-- P_JSR_READ_ORDER (R8, R201): whether JSR reads its operand after or before the push. -/
inductive JsrReadOrder where
  | afterPush
  | beforePush
  deriving DecidableEq, Repr

/-- R201: "P_JSR_READ_ORDER = after_push, the value chosen here" (the spec's decision D8, log entry 5). -/
def Config.jsrReadOrder : JsrReadOrder := .afterPush

end Sys2Proof
end

