-- ==== Sys2Proof/Syntax.lean ====
section
/-! DEFINITION. The syntax of the instruction set: registers, operand forms and the 35 instructions of
spec/opcode_table.json. Operand words stay in the instruction stream: resolution reads them at PC (40_operand_resolver R101),
so an `Instr` is what the instruction word alone says (30_encoding R87). -/

namespace Sys2Proof

/-- R20: the general registers, index 0 = A, 1 = B, 2 = C, 3 = X, 4 = Y, 5 = Z, 6 = I, 7 = J. -/
inductive Reg where
  | a | b | c | x | y | z | i | j
  deriving DecidableEq, Repr

/-- R13, R16: which operand a code is resolved as, a (second, A_POS) or b (first, B_POS). -/
inductive Position where
  | a
  | b
  deriving DecidableEq, Repr

/-- R102: the addressing forms that the operand codes 0x00-0x3F name, one constructor per row of the resolver. -/
inductive Operand where
  /-- 0x00-0x07, R103: a register. -/
  | reg (r : Reg)
  /-- 0x08-0x0F, R104: `[register]`. -/
  | ind (r : Reg)
  /-- 0x10-0x17, R105: `[next word + register]`. -/
  | indNext (r : Reg)
  /-- 0x18: PUSH `[--SP]` in b position (R106), POP `[SP++]` in a position (R107). -/
  | pushPop
  /-- 0x19, R108: PEEK `[SP]`. -/
  | peek
  /-- 0x1A, R109: PICK `[SP + next word]`. -/
  | pick
  /-- 0x1B, R110: SP. -/
  | sp
  /-- 0x1C, R111: PC. -/
  | pc
  /-- 0x1D, R112: EX. -/
  | ex
  /-- 0x1E, R113: `[next word]`. -/
  | memNext
  /-- 0x1F, R114: next word as a literal. -/
  | litNext
  /-- 0x20-0x3F, R115: an inline literal; `k` is the code less 0x20. Legal in a position only (R74, R116). -/
  | inline (k : BitVec 5)
  deriving DecidableEq, Repr

/-- The instructions: `b` is the first operand (word bits 9:5), `a` the second (bits 15:10). -/
inductive Instr where
  /-- SET b, a. R141: b := a. -/
  | set (b a : Operand)
  /-- ADD b, a. R142: b := b + a, carry to EX. -/
  | add (b a : Operand)
  /-- SUB b, a. R143: b := b - a, borrow to EX. -/
  | sub (b a : Operand)
  /-- MUL b, a. R144: b := b * a, high half to EX. -/
  | mul (b a : Operand)
  /-- MLI b, a. R231: inert. -/
  | mli (b a : Operand)
  /-- DIV b, a. R145: b := b / a, fraction to EX. -/
  | div (b a : Operand)
  /-- DVI b, a. R232: inert. -/
  | dvi (b a : Operand)
  /-- MOD b, a. R146: b := b mod a. -/
  | mod (b a : Operand)
  /-- MDI b, a. R233: inert. -/
  | mdi (b a : Operand)
  /-- AND b, a. R147: bitwise and. -/
  | and (b a : Operand)
  /-- BOR b, a. R148: bitwise or. -/
  | bor (b a : Operand)
  /-- XOR b, a. R149: bitwise exclusive or. -/
  | xor (b a : Operand)
  /-- SHR b, a. R151: logical shift right. -/
  | shr (b a : Operand)
  /-- ASR b, a. R234: inert. -/
  | asr (b a : Operand)
  /-- SHL b, a. R150: logical shift left. -/
  | shl (b a : Operand)
  /-- IFB b, a. R181: next if a bit in common. -/
  | ifb (b a : Operand)
  /-- IFC b, a. R182: next if no bit in common. -/
  | ifc (b a : Operand)
  /-- IFE b, a. R183: next if equal. -/
  | ife (b a : Operand)
  /-- IFN b, a. R184: next if not equal. -/
  | ifn (b a : Operand)
  /-- IFG b, a. R185: next if b > a. -/
  | ifg (b a : Operand)
  /-- IFL b, a. R186: next if b < a. -/
  | ifl (b a : Operand)
  /-- ADX b, a. R235: inert. -/
  | adx (b a : Operand)
  /-- SBX b, a. R236: inert. -/
  | sbx (b a : Operand)
  /-- STI b, a. R237: inert. -/
  | sti (b a : Operand)
  /-- STD b, a. R238: inert. -/
  | std (b a : Operand)
  /-- JSR a. R201: call. -/
  | jsr (a : Operand)
  /-- INT a. R203: inert. -/
  | int (a : Operand)
  /-- IAG a. R204: inert. -/
  | iag (a : Operand)
  /-- IAS a. R205: inert. -/
  | ias (a : Operand)
  /-- IAP a. R206: inert. -/
  | iap (a : Operand)
  /-- IAQ a. R207: inert. -/
  | iaq (a : Operand)
  /-- HWN a. R208: inert. -/
  | hwn (a : Operand)
  /-- HWQ a. R209: inert. -/
  | hwq (a : Operand)
  /-- HWI a. R210: inert. -/
  | hwi (a : Operand)
  /-- HLT a. R202: halt. -/
  | hlt (a : Operand)
  deriving DecidableEq, Repr

/-- The a operand, which every instruction has (R71, R72). -/
def Instr.aOperand : Instr → Operand
  | .set _ a => a
  | .add _ a => a
  | .sub _ a => a
  | .mul _ a => a
  | .mli _ a => a
  | .div _ a => a
  | .dvi _ a => a
  | .mod _ a => a
  | .mdi _ a => a
  | .and _ a => a
  | .bor _ a => a
  | .xor _ a => a
  | .shr _ a => a
  | .asr _ a => a
  | .shl _ a => a
  | .ifb _ a => a
  | .ifc _ a => a
  | .ife _ a => a
  | .ifn _ a => a
  | .ifg _ a => a
  | .ifl _ a => a
  | .adx _ a => a
  | .sbx _ a => a
  | .sti _ a => a
  | .std _ a => a
  | .jsr a => a
  | .int a => a
  | .iag a => a
  | .ias a => a
  | .iap a => a
  | .iaq a => a
  | .hwn a => a
  | .hwq a => a
  | .hwi a => a
  | .hlt a => a

/-- The b operand, which the ordinary instructions have (R71) and the extended ones have not (R72). -/
def Instr.bOperand : Instr → Option Operand
  | .set b _ => some b
  | .add b _ => some b
  | .sub b _ => some b
  | .mul b _ => some b
  | .mli b _ => some b
  | .div b _ => some b
  | .dvi b _ => some b
  | .mod b _ => some b
  | .mdi b _ => some b
  | .and b _ => some b
  | .bor b _ => some b
  | .xor b _ => some b
  | .shr b _ => some b
  | .asr b _ => some b
  | .shl b _ => some b
  | .ifb b _ => some b
  | .ifc b _ => some b
  | .ife b _ => some b
  | .ifn b _ => some b
  | .ifg b _ => some b
  | .ifl b _ => some b
  | .adx b _ => some b
  | .sbx b _ => some b
  | .sti b _ => some b
  | .std b _ => some b
  | .jsr _ => none
  | .int _ => none
  | .iag _ => none
  | .ias _ => none
  | .iap _ => none
  | .iaq _ => none
  | .hwn _ => none
  | .hwq _ => none
  | .hwi _ => none
  | .hlt _ => none

/-- R88: n(code), the number of words the operand takes from the instruction stream. -/
def Operand.words : Operand → Nat
  | .indNext _ | .pick | .memNext | .litNext => 1
  | .reg _ | .ind _ | .pushPop | .peek | .sp | .pc | .ex | .inline _ => 0

/-- R88: the instruction's length in Words, `1 + n(a) + n(b)`, or `1 + n(a)` for an extended one. -/
def Instr.length (i : Instr) : Nat := 1 + i.aOperand.words + (i.bOperand.map Operand.words).getD 0

end Sys2Proof
end

