-- ==== Sys2Proof/WellFormed.lean ====
section
/-! DEFINITION. Which instructions have words: the operand-position rule (R74, R116) and HLT's parameter (R83). -/

namespace Sys2Proof

/-- R116: every operand form is legal in both positions but the inline literal, which is "legal only as a second operand
(position 'a')"; the 5-bit b field enforces it (R74). -/
def Operand.legalIn (o : Operand) (p : Position) : Bool :=
  match o, p with
  | .inline _, .b => false
  | _, _ => true

/-- R83: HLT "cannot be encoded" in a model that is not given P_HLT_OP; every other instruction always can. -/
def Instr.hasCode (c : Config) : Instr → Bool
  | .hlt _ => c.hltOp.isSome
  | _ => true

/-- An instruction is well-formed when its b operand is legal in b position and it has a code. -/
def Instr.wellFormed (c : Config) (i : Instr) : Bool :=
  (i.bOperand.all fun b => b.legalIn .b) && i.hasCode c

end Sys2Proof
end

