-- ==== Sys2Proof/Decode.lean ====
section
/-! DEFINITION. The decoder and the encoder of the instruction word (30_encoding). Both are total: the decoder takes any
Word and rejects by name, the encoder answers none for an instruction that has no word. -/

namespace Sys2Proof

/-- R70: `op = w[4:0]`. -/
def opField (w : Word) : BitVec 5 := w.extractLsb' 0 5

/-- R70: `b = w[9:5]`, the first-operand code, or the extended discriminant where op = 0. -/
def bField (w : Word) : BitVec 5 := w.extractLsb' 5 5

/-- R70: `a = w[15:10]`, the second-operand code. -/
def aField (w : Word) : BitVec 6 := w.extractLsb' 10 6

/-- R70, packing: `w = op | (b << 5) | (a << 10)`. -/
def pack (op b : BitVec 5) (a : BitVec 6) : Word :=
  op.setWidth 16 ||| (b.setWidth 16 <<< 5) ||| (a.setWidth 16 <<< 10)

/-- R20: the register of an index. -/
def Reg.ofIndex (n : BitVec 3) : Reg :=
  match n.toNat with
  | 0 => .a
  | 1 => .b
  | 2 => .c
  | 3 => .x
  | 4 => .y
  | 5 => .z
  | 6 => .i
  | _ => .j

/-- R20: the index of a register. -/
def Reg.index : Reg → BitVec 3
  | .a => 0
  | .b => 1
  | .c => 2
  | .x => 3
  | .y => 4
  | .z => 5
  | .i => 6
  | .j => 7

/-- R75, R102: the form an operand code names. A b code is given zero-extended to 6 bits. -/
def Operand.ofCode (code : BitVec 6) : Operand :=
  let n := code.toNat
  let r := Reg.ofIndex (code.extractLsb' 0 3)
  if n < 0x08 then .reg r
  else if n < 0x10 then .ind r
  else if n < 0x18 then .indNext r
  else if n = 0x18 then .pushPop
  else if n = 0x19 then .peek
  else if n = 0x1A then .pick
  else if n = 0x1B then .sp
  else if n = 0x1C then .pc
  else if n = 0x1D then .ex
  else if n = 0x1E then .memNext
  else if n = 0x1F then .litNext
  else .inline (code.extractLsb' 0 5)

/-- R75: the operand code of a form. -/
def Operand.code : Operand → BitVec 6
  | .reg r => 0x00 + r.index.setWidth 6
  | .ind r => 0x08 + r.index.setWidth 6
  | .indNext r => 0x10 + r.index.setWidth 6
  | .pushPop => 0x18
  | .peek => 0x19
  | .pick => 0x1A
  | .sp => 0x1B
  | .pc => 0x1C
  | .ex => 0x1D
  | .memNext => 0x1E
  | .litNext => 0x1F
  | .inline k => 0x20 + k.setWidth 6

/-- The instruction of an ordinary operation (R71). -/
def OrdinaryOp.instr : OrdinaryOp → Operand → Operand → Instr
  | .set => .set
  | .add => .add
  | .sub => .sub
  | .mul => .mul
  | .mli => .mli
  | .div => .div
  | .dvi => .dvi
  | .mod => .mod
  | .mdi => .mdi
  | .and => .and
  | .bor => .bor
  | .xor => .xor
  | .shr => .shr
  | .asr => .asr
  | .shl => .shl
  | .ifb => .ifb
  | .ifc => .ifc
  | .ife => .ife
  | .ifn => .ifn
  | .ifg => .ifg
  | .ifl => .ifl
  | .adx => .adx
  | .sbx => .sbx
  | .sti => .sti
  | .std => .std

/-- The instruction of an extended operation (R72). -/
def ExtendedOp.instr : ExtendedOp → Operand → Instr
  | .jsr => .jsr
  | .int => .int
  | .iag => .iag
  | .ias => .ias
  | .iap => .iap
  | .iaq => .iaq
  | .hwn => .hwn
  | .hwq => .hwq
  | .hwi => .hwi

/-- The ordinary operation of an instruction, where it is one. -/
def Instr.ordinaryOp : Instr → Option OrdinaryOp
  | .set _ _ => some .set
  | .add _ _ => some .add
  | .sub _ _ => some .sub
  | .mul _ _ => some .mul
  | .mli _ _ => some .mli
  | .div _ _ => some .div
  | .dvi _ _ => some .dvi
  | .mod _ _ => some .mod
  | .mdi _ _ => some .mdi
  | .and _ _ => some .and
  | .bor _ _ => some .bor
  | .xor _ _ => some .xor
  | .shr _ _ => some .shr
  | .asr _ _ => some .asr
  | .shl _ _ => some .shl
  | .ifb _ _ => some .ifb
  | .ifc _ _ => some .ifc
  | .ife _ _ => some .ife
  | .ifn _ _ => some .ifn
  | .ifg _ _ => some .ifg
  | .ifl _ _ => some .ifl
  | .adx _ _ => some .adx
  | .sbx _ _ => some .sbx
  | .sti _ _ => some .sti
  | .std _ _ => some .std
  | .jsr _ => none
  | .int _ => none
  | .iag _ => none
  | .ias _ => none
  | .iap _ => none
  | .iaq _ => none
  | .hwn _ => none
  | .hwq _ => none
  | .hwi _ => none
  | .hlt _ => none

/-- The extended operation of an instruction, where EXT_MAP numbers it. -/
def Instr.extendedOp : Instr → Option ExtendedOp
  | .set _ _ => none
  | .add _ _ => none
  | .sub _ _ => none
  | .mul _ _ => none
  | .mli _ _ => none
  | .div _ _ => none
  | .dvi _ _ => none
  | .mod _ _ => none
  | .mdi _ _ => none
  | .and _ _ => none
  | .bor _ _ => none
  | .xor _ _ => none
  | .shr _ _ => none
  | .asr _ _ => none
  | .shl _ _ => none
  | .ifb _ _ => none
  | .ifc _ _ => none
  | .ife _ _ => none
  | .ifn _ _ => none
  | .ifg _ _ => none
  | .ifl _ _ => none
  | .adx _ _ => none
  | .sbx _ _ => none
  | .sti _ _ => none
  | .std _ _ => none
  | .jsr _ => some .jsr
  | .int _ => some .int
  | .iag _ => some .iag
  | .ias _ => some .ias
  | .iap _ => some .iap
  | .iaq _ => some .iaq
  | .hwn _ => some .hwn
  | .hwq _ => some .hwq
  | .hwi _ => some .hwi
  | .hlt _ => none

/-- OPCODE_MAP, the assignment of R80. The six values that are not here (0x15, 0x17, 0x18, 0x19, 0x1C, 0x1D) name none (R81),
and 0x00 is the extended format (R72). "another assignment changes one table" (D1): the decoder and the encoder take it. -/
def opcodeMap : OpcodeMap :=
  [(0x01, .set), (0x02, .add), (0x03, .sub), (0x04, .mul), (0x05, .mli), (0x06, .div),
   (0x07, .dvi), (0x08, .mod), (0x09, .mdi), (0x0A, .and), (0x0B, .bor), (0x0C, .xor),
   (0x0D, .shr), (0x0E, .asr), (0x0F, .shl), (0x10, .ifb), (0x11, .ifc), (0x12, .ife),
   (0x13, .ifn), (0x14, .ifg), (0x16, .ifl), (0x1A, .adx), (0x1B, .sbx), (0x1E, .sti),
   (0x1F, .std)]

/-- EXT_MAP, the assignment of R82, HLT's open discriminant apart. -/
def extMap : ExtMap :=
  [(0x01, .jsr), (0x08, .int), (0x09, .iag), (0x0A, .ias), (0x0B, .iap), (0x0C, .iaq),
   (0x10, .hwn), (0x11, .hwq), (0x12, .hwi)]

/-- The number that an assignment gives an operation. -/
def numberOf {α : Type} [DecidableEq α] (table : List (BitVec 5 × α)) (op : α) : Option (BitVec 5) :=
  match table with
  | [] => none
  | (n, o) :: rest => if o = op then some n else numberOf rest op

/-- The lookup of a discriminant (R82-R84): EXT_MAP, then HLT where the parameter gives this value to it (R83). -/
def extLookup (em : ExtMap) (c : Config) (d : BitVec 5) : Option (Operand → Instr) :=
  match em.lookup d with
  | some o => some o.instr
  | none => if c.hltCode = some d then some .hlt else none

/-- What an instruction word is (R85): an instruction, or a word with no handler, which keeps the operands that the step
still resolves (45_execution_engine R255). -/
inductive Decoded where
  /-- An ordinary or extended instruction. -/
  | instr (i : Instr)
  /-- op ≠ 0 names no operation (R81). -/
  | invalidOrdinary (op : BitVec 5) (b a : Operand)
  /-- op = 0 and the discriminant names no operation (R84). -/
  | invalidExtended (disc : BitVec 5) (a : Operand)
  deriving DecidableEq, Repr

/-- R87: the decoding of one instruction word, under the assignments OPCODE_MAP and EXT_MAP. -/
def decodeWith (om : OpcodeMap) (em : ExtMap) (c : Config) (w : Word) : Decoded :=
  let a := Operand.ofCode (aField w)
  if opField w = 0 then
    match extLookup em c (bField w) with
    | some f => .instr (f a)
    | none => .invalidExtended (bField w) a
  else
    let b := Operand.ofCode ((bField w).setWidth 6)
    match om.lookup (opField w) with
    | some o => .instr (o.instr b a)
    | none => .invalidOrdinary (opField w) b a

/-- R87: the decoding of one instruction word, under the assignments of R80 and R82. -/
def decode (c : Config) (w : Word) : Decoded := decodeWith opcodeMap extMap c w

/-- The word of an ordinary instruction (R71), where the b operand fits its 5-bit field (R74). -/
def encodeOrdinary (op : BitVec 5) (b a : Operand) : Option Word :=
  if b.legalIn .b then some (pack op (b.code.setWidth 5) a.code) else none

/-- The word of an extended instruction (R72). -/
def encodeExtended (disc : BitVec 5) (a : Operand) : Word := pack 0 disc a.code

/-- The instruction word of an instruction, under the assignments OPCODE_MAP and EXT_MAP; none where it has no word. -/
def encodeWith (om : OpcodeMap) (em : ExtMap) (c : Config) (i : Instr) : Option Word :=
  match i.ordinaryOp, i.bOperand with
  | some o, some b => (numberOf om o).bind fun n => encodeOrdinary n b i.aOperand
  | _, _ =>
    match i.extendedOp with
    | some o => (numberOf em o).map fun d => encodeExtended d i.aOperand
    | none => c.hltCode.map fun d => encodeExtended d i.aOperand

/-- The instruction word of an instruction, under the assignments of R80 and R82; none where it has no word. -/
def encode (c : Config) (i : Instr) : Option Word := encodeWith opcodeMap extMap c i

/-- The parameters under which a word of the opcode table is read: the row of HLT gives its discriminant as a field, "match =
P_HLT_OP << 5", so a word with op = 0 and a free discriminant is read with P_HLT_OP equal to that discriminant, and every
other word without it. DESIGN CHOICE (log entry 4). -/
def tableConfig (w : Word) : Config :=
  if h : isFreeDiscriminant (bField w) = true then
    if opField w = 0 then { hltOp := some ⟨bField w, h⟩ } else { hltOp := none }
  else { hltOp := none }

/-- Word `k` (0 the first) of an instruction whose bits are `w`, of which only the low `nbits` count. -/
def tableWord (nbits w k : Nat) : Word := BitVec.ofNat 16 ((w % 2 ^ nbits) >>> (16 * k))

/-- The instruction that the decoder reads from an instruction whose bits are `w`, numbered as spec/opcode_table.json
numbers them. The memory of this hardware holds Words, so the first word is the instruction word (R70, R54). -/
def decodeTableWord (nbits w : Nat) : Option Instr :=
  match decode (tableConfig (tableWord nbits w 0)) (tableWord nbits w 0) with
  | .instr i => some i
  | .invalidOrdinary _ _ _ => none
  | .invalidExtended _ _ => none

end Sys2Proof
end

