-- ==== Sys2Proof/Machine/State.lean ====
section
/-! DEFINITION. The state of the machine (10_state), the state after reset, and the reasons a step can stop. -/

namespace Sys2Proof.Machine

/-- R20: the eight general registers A, B, C, X, Y, Z, I, J; none is hard-wired and none aliases another. -/
structure Gpr where
  a : Word
  b : Word
  c : Word
  x : Word
  y : Word
  z : Word
  i : Word
  j : Word
  deriving DecidableEq, Repr

/-- R284: the kinds of fatal error. -/
inductive FaultKind where
  /-- R281: no handler for the primary opcode or the discriminant. -/
  | invalidOpcode
  /-- R282: an operand code with no Location in its position; no instruction word has one. -/
  | invalidOperandCode
  deriving DecidableEq, Repr

/-- R31, R280: the fault record `{kind, pc, code, position}`; a 5-bit code is held zero-extended to 6 bits. -/
structure FaultRecord where
  kind : FaultKind
  pc : Word
  code : BitVec 6
  position : Option Position
  deriving DecidableEq, Repr

/-- R30, R31: the core status; the fault record is held exactly while the status is Faulted. -/
inductive Status where
  | running
  | halted
  | faulted (r : FaultRecord)
  deriving DecidableEq, Repr

/-- R34: what one core owns: its Register File, skip latch and status. -/
structure Cpu where
  /-- R20. -/
  gpr : Gpr
  /-- R23: the address of the next Word of the instruction stream. -/
  pc : Word
  /-- R27. -/
  sp : Word
  /-- R28: the overflow/extra register. -/
  ex : Word
  /-- R29: the one-shot skip latch. -/
  skip : Bool
  /-- R30, R31. -/
  status : Status
  deriving DecidableEq, Repr

/-- A listed memory cell: its address and the Word it holds (R50, R53). This hardware has no byte, so the cell is not
`Host.Cell`. DESIGN CHOICE (log entry 1). -/
abbrev Cell := Nat × Word

/-- R50: the Word Store, 65536 Words, as the list of the cells that are not 0, by rising address. A cell that is not
listed holds 0x0000 (log entry 2). -/
structure Memory where
  cells : List Cell
  deriving DecidableEq, Repr

/-- The machine: one core, the Memory it references (R34), and the parameters of R8, which no step changes. -/
structure State where
  cpu : Cpu
  mem : Memory
  /-- The model's own field: P_HLT_OP (R83, log entry 3). -/
  config : Config
  deriving DecidableEq, Repr

/-- The reasons for which a step stops without a next state: there are none. R52: no access faults; R283 lists what is not
a fault; and for the fatal errors that the spec does have (R280-R282) it gives the after-state, so the model takes them as
a next state whose status is `Status.faulted`. Nothing raises this, so it is neither safe nor unsafe. -/
inductive Fault where
  deriving DecidableEq, Repr

/-- What the model does not admit. -/
inductive Refusal where
  /-- Raised by an arm of `exec` whose instruction has no meaning yet; no arm raises it. Safe. -/
  | notModelled (mnemonic : String)
  /-- Raised by the host operation `load` alone: "A load longer than 65536 Words is refused" (R270). Safe. -/
  | loadTooLong
  /-- Raised by the host's memory port alone, on an address outside 0..65535 (93_implementation_defined row 21). Safe. -/
  | addressOutOfRange
  /-- Raised by the host's register access alone, on an index outside 0..7 (93_implementation_defined row 20). Safe. -/
  | registerIndexOutOfRange
  /-- Raised by stepping or resetting a core that a system has not (R273 gives no meaning to it; log entry 11). Safe. -/
  | noSuchCore
  deriving DecidableEq, Repr

/-- R37: the core's own state after `reset()`. -/
def Cpu.reset : Cpu where
  gpr := { a := 0, b := 0, c := 0, x := 0, y := 0, z := 0, i := 0, j := 0 }
  pc := 0
  sp := 0
  ex := 0
  skip := false
  status := .running

/-- The memory in which every cell is 0x0000, as `clear()` leaves it (R312). -/
def Memory.zero : Memory where
  cells := []

/-- The machine after `reset()` (R37, R310) and `clear()` (R312), the "Reset state" of 95_test_vectors. The memory's
contents are the model's choice where only `reset()` was called (R38; DESIGN CHOICE, log entry 2), and so is the absence of
P_HLT_OP (R83; DESIGN CHOICE, log entry 3). -/
def State.reset : State where
  cpu := Cpu.reset
  mem := Memory.zero
  config := { hltOp := none }

end Sys2Proof.Machine
end

