-- ==== Sys2Proof/Machine/Ops.lean ====
section
/-! DEFINITION. The named operations over registers and memory, taking a fault, and the reset that alone leads back. -/

namespace Sys2Proof.Machine

/-! ### Memory -/

/-- The Word at an address of a sorted list of cells: an address that is not listed holds 0. -/
def readCells : List Cell → Nat → Word
  | [], _ => 0
  | (k, v) :: rest, n => if n < k then 0 else if n = k then v else readCells rest n

/-- The list with the Word `v` at address `n`; writing 0, what an unlisted address holds, removes the entry. -/
def writeCells : List Cell → Nat → Word → List Cell
  | [], n, v => if v = 0 then [] else [(n, v)]
  | (k, u) :: rest, n, v =>
    if n < k then (if v = 0 then (k, u) :: rest else (n, v) :: (k, u) :: rest)
    else if n = k then (if v = 0 then rest else (n, v) :: rest)
    else (k, u) :: writeCells rest n v

/-- The canonical form of a list of cells from address `lo` on: addresses strictly rising and below 65536, no Word 0. -/
def cellsWf (lo : Nat) : List Cell → Bool
  | [] => true
  | (k, v) :: rest => decide (lo ≤ k) && decide (k < 65536) && decide (v ≠ 0) && cellsWf (k + 1) rest

/-- The memory is in canonical form, so that equal memories are equal data. -/
def Memory.wf (m : Memory) : Bool := cellsWf 0 m.cells

/-- R12: `MemRead(addr, 1)`. -/
def Memory.read (m : Memory) (addr : Word) : Word := readCells m.cells addr.toNat

/-- R12: `MemWrite(addr, 1, v)`. -/
def Memory.write (m : Memory) (addr v : Word) : Memory := { cells := writeCells m.cells addr.toNat v }

/-! ### Registers -/

/-- R11: `x[i]`. -/
def Gpr.get (g : Gpr) : Reg → Word
  | .a => g.a
  | .b => g.b
  | .c => g.c
  | .x => g.x
  | .y => g.y
  | .z => g.z
  | .i => g.i
  | .j => g.j

/-- R11: `x[i] <- v`. -/
def Gpr.set (g : Gpr) (r : Reg) (v : Word) : Gpr :=
  match r with
  | .a => { g with a := v }
  | .b => { g with b := v }
  | .c => { g with c := v }
  | .x => { g with x := v }
  | .y => { g with y := v }
  | .z => { g with z := v }
  | .i => { g with i := v }
  | .j => { g with j := v }

/-- R11: `x[r]` of the machine. -/
def State.reg (s : State) (r : Reg) : Word := s.cpu.gpr.get r

/-- R11: `x[r] <- v`. -/
def State.setReg (s : State) (r : Reg) (v : Word) : State := { s with cpu := { s.cpu with gpr := s.cpu.gpr.set r v } }

/-- R11: `PC <- v`. -/
def State.setPc (s : State) (v : Word) : State := { s with cpu := { s.cpu with pc := v } }

/-- R11: `SP <- v`. -/
def State.setSp (s : State) (v : Word) : State := { s with cpu := { s.cpu with sp := v } }

/-- R11: `EX <- v`. -/
def State.setEx (s : State) (v : Word) : State := { s with cpu := { s.cpu with ex := v } }

/-- R11: `skip <- true/false`. -/
def State.setSkip (s : State) (v : Bool) : State := { s with cpu := { s.cpu with skip := v } }

/-- R30: `status <- v`. -/
def State.setStatus (s : State) (v : Status) : State := { s with cpu := { s.cpu with status := v } }

/-- R12: `M[addr]`. -/
def State.memRead (s : State) (addr : Word) : Word := s.mem.read addr

/-- R12: `M[addr] <- v`. -/
def State.memWrite (s : State) (addr v : Word) : State := { s with mem := s.mem.write addr v }

/-! ### The instruction stream and the stack -/

/-- R101: `NextWord()`, also the fetch of the instruction word (R252): the Word at PC, and PC advanced by one. -/
def State.nextWord (s : State) : Word × State := (s.memRead s.cpu.pc, s.setPc (s.cpu.pc + 1))

/-- R201: JSR's push of a Word: SP is decremented and the Word stored at the new SP. -/
def State.push (s : State) (v : Word) : State := (s.setSp (s.cpu.sp - 1)).memWrite (s.cpu.sp - 1) v

/-! ### Taking a fault, and the reset -/

/-- R280: `raise Fault(kind, pc, code, position)`: the status becomes Faulted and the record holds the PC at detection;
every earlier effect of the step stays (R286) and nothing else changes (R287). -/
def State.raiseFault (s : State) (kind : FaultKind) (code : BitVec 6) (position : Option Position) : State :=
  s.setStatus (.faulted { kind := kind, pc := s.cpu.pc, code := code, position := position })

/-- R31: the fault record, held while the status is Faulted. -/
def State.faultRecord (s : State) : Option FaultRecord :=
  match s.cpu.status with
  | .faulted r => some r
  | .running => none
  | .halted => none

/-- R284: the number of a fault kind. -/
def FaultKind.code : FaultKind → Nat
  | .invalidOpcode => 1
  | .invalidOperandCode => 2

/-- R310: `reset()`: registers, PC, SP and EX to 0, skip false, status Running, no fault record. R288: it is the only way
back from a fault. R311: it touches no memory cell. -/
def State.doReset (s : State) : State := { s with cpu := Cpu.reset }

end Sys2Proof.Machine
end

