-- ==== Sys2Proof/Machine/Operands.lean ====
section
/-! DEFINITION. The operand resolver and the Locations (40_operand_resolver), and the part of a step that every
instruction shares: resolving its operands, the skip test, and the call of its handler (45_execution_engine R251). -/

namespace Sys2Proof.Machine

/-- R117: a resolved read/write handle. A memory address is fixed at resolution (R118); a register-naming Location names
the live register. -/
inductive Location where
  | register (r : Reg)
  | memoryCell (t : Word)
  | stackPush (t : Word)
  | stackPop (t : Word)
  | stackPeek (t : Word)
  | stackPointer
  | programCounter
  | overflow
  | literal (v : Word)
  deriving DecidableEq, Repr

/-- R115: the value of the inline literal whose code is `0x20 + k`: `wrap16(code - 0x21)`. -/
def inlineValue (k : BitVec 5) : Word := wrap16 ((0x20 + k.toNat : Int) - 0x21)

/-- R102: the resolver. It answers no Location for the one code that is illegal in its position (R116). -/
def resolve (o : Operand) (p : Position) (s : State) : Option Location × State :=
  match o with
  | .reg r => (some (.register r), s)
  | .ind r => (some (.memoryCell (s.reg r)), s)
  | .indNext r => (some (.memoryCell (s.nextWord.1 + s.nextWord.2.reg r)), s.nextWord.2)
  | .pushPop =>
    match p with
    | .b => (some (.stackPush (s.cpu.sp - 1)), s.setSp (s.cpu.sp - 1))
    | .a => (some (.stackPop s.cpu.sp), s.setSp (s.cpu.sp + 1))
  | .peek => (some (.stackPeek s.cpu.sp), s)
  | .pick => (some (.memoryCell (s.nextWord.2.cpu.sp + s.nextWord.1)), s.nextWord.2)
  | .sp => (some .stackPointer, s)
  | .pc => (some .programCounter, s)
  | .ex => (some .overflow, s)
  | .memNext => (some (.memoryCell s.nextWord.1), s.nextWord.2)
  | .litNext => (some (.literal s.nextWord.1), s.nextWord.2)
  | .inline k =>
    match p with
    | .a => (some (.literal (inlineValue k)), s)
    | .b => (none, s)

/-- R118: the address of a peek Location that holds `t`, SP at its resolution, under P_PEEK_BINDING. -/
def State.peekAddress (s : State) (binding : PeekBinding) (t : Word) : Word :=
  match binding with
  | .atResolution => t
  | .atGet => s.cpu.sp

/-- R123: what reading the push Location at `t` gives, under P_PUSH_READ. -/
def State.readPush (s : State) (reading : PushRead) (t : Word) : Word :=
  match reading with
  | .cell => s.memRead t

/-- R120: `get(L)`, under P_PEEK_BINDING and P_PUSH_READ. -/
def State.getLocWith (s : State) (binding : PeekBinding) (reading : PushRead) : Location → Word
  | .register r => s.reg r
  | .memoryCell t => s.memRead t
  | .stackPush t => s.readPush reading t
  | .stackPop t => s.memRead t
  | .stackPeek t => s.memRead (s.peekAddress binding t)
  | .stackPointer => s.cpu.sp
  | .programCounter => s.cpu.pc
  | .overflow => s.cpu.ex
  | .literal v => v

/-- R121: `set(L, v)`, under P_PEEK_BINDING; a write to a Literal is discarded (R122). -/
def State.setLocWith (s : State) (binding : PeekBinding) (l : Location) (v : Word) : State :=
  match l with
  | .register r => s.setReg r v
  | .memoryCell t => s.memWrite t v
  | .stackPush t => s.memWrite t v
  | .stackPop t => s.memWrite t v
  | .stackPeek t => s.memWrite (s.peekAddress binding t) v
  | .stackPointer => s.setSp v
  | .programCounter => s.setPc v
  | .overflow => s.setEx v
  | .literal _ => s

/-- R120: `get(L)`, with the values that the spec decides for its parameters. -/
def State.getLoc (s : State) (l : Location) : Word := s.getLocWith Config.peekBinding Config.pushRead l

/-- R121: `set(L, v)`, with the value that the spec decides for its parameter. -/
def State.setLoc (s : State) (l : Location) (v : Word) : State := s.setLocWith Config.peekBinding l v

/-- The memory cell that a Location reads and writes, where it is one (R120, R121). -/
def Location.cell : Location → Option Word
  | .memoryCell t => some t
  | .stackPush t => some t
  | .stackPop t => some t
  | .stackPeek t => some t
  | .register _ | .stackPointer | .programCounter | .overflow | .literal _ => none

/-- What resolving an instruction's operands leaves. -/
inductive Resolution (α : Type) where
  /-- The Locations and the state that resolution left. -/
  | resolved (l : α) (s : State)
  /-- R282: an operand code with no Location in its position. -/
  | illegal (o : Operand) (p : Position) (s : State)
  deriving Repr

/-- R254: the single operand of an extended instruction, resolved in A_POS. -/
def resolveA (a : Operand) (s : State) : Resolution Location :=
  match resolve a .a s with
  | (some la, s1) => .resolved la s1
  | (none, s1) => .illegal a .a s1

/-- R124, R254: both operands, a in A_POS completely, then b in B_POS. The pair is (b, a). -/
def resolveBoth (b a : Operand) (s : State) : Resolution (Location × Location) :=
  match resolve a .a s with
  | (none, s1) => .illegal a .a s1
  | (some la, s1) =>
    match resolve b .b s1 with
    | (none, s2) => .illegal b .b s2
    | (some lb, s2) => .resolved (lb, la) s2

/-- R282, R285: an InvalidOperandCode ends the step, before the skip test and before any handler. -/
def illegalOperand (o : Operand) (p : Position) (s : State) : State :=
  s.raiseFault .invalidOperandCode o.code (some p)

/-- R251, from resolution on, for an instruction with two operands: resolve, test skip (R256), call the handler (R257). -/
def ordinary (handler : Location → Location → State → State) (b a : Operand) (s : State) : State :=
  match resolveBoth b a s with
  | .illegal o p s1 => illegalOperand o p s1
  | .resolved (lb, la) s1 => bif s1.cpu.skip then s1.setSkip false else handler lb la s1

/-- R200, R251: the same for an extended instruction, which has one operand. -/
def extended (handler : Location → State → State) (a : Operand) (s : State) : State :=
  match resolveA a s with
  | .illegal o p s1 => illegalOperand o p s1
  | .resolved la s1 => bif s1.cpu.skip then s1.setSkip false else handler la s1

/-- R255, R281: a word whose primary opcode names no operation: both operands are resolved, then the step faults. -/
def invalidOrdinary (op : BitVec 5) (b a : Operand) (s : State) : State :=
  match resolveBoth b a s with
  | .illegal o p s1 => illegalOperand o p s1
  | .resolved _ s1 => s1.raiseFault .invalidOpcode (op.setWidth 6) none

/-- R255, R281: an extended word whose discriminant names no operation: its operand is resolved, then the step faults. -/
def invalidExtended (disc : BitVec 5) (a : Operand) (s : State) : State :=
  match resolveA a s with
  | .illegal o p s1 => illegalOperand o p s1
  | .resolved _ s1 => s1.raiseFault .invalidOpcode (disc.setWidth 6) none

end Sys2Proof.Machine
end

