-- ==== Sys2Proof/Machine/Arith.lean ====
section
/-! DEFINITION. The arithmetic, logic, shift and move instructions (41_arith_logic). -/

namespace Sys2Proof.Machine

/-- R141: `set(Lb, get(La))`. -/
def moveHandler (lb la : Location) (s : State) : State := s.setLoc lb (s.getLoc la)

/-- R140 for the operations that leave EX alone: a and b are read before the write to b. -/
def arithHandler (value : Word → Word → Word) (lb la : Location) (s : State) : State :=
  s.setLoc lb (value (s.getLoc lb) (s.getLoc la))

/-- R140, R152 for the operations that write EX: b is written first and EX second, both from the operands as read. -/
def arithExHandler (value ex : Word → Word → Word) (lb la : Location) (s : State) : State :=
  (s.setLoc lb (value (s.getLoc lb) (s.getLoc la))).setEx (ex (s.getLoc lb) (s.getLoc la))

/-- R141. SET b, a: b := a; b is not read and EX not written. -/
def execSet (b a : Operand) (s : State) : Host.Outcome State Fault Refusal :=
  .next (ordinary moveHandler b a s)

/-- R142. ADD b, a: b := b + a, EX := the carry. -/
def execAdd (b a : Operand) (s : State) : Host.Outcome State Fault Refusal :=
  .next (ordinary (arithExHandler addValue addEx) b a s)

/-- R143. SUB b, a: b := b - a, EX := 0xFFFF on a borrow. -/
def execSub (b a : Operand) (s : State) : Host.Outcome State Fault Refusal :=
  .next (ordinary (arithExHandler subValue subEx) b a s)

/-- R144. MUL b, a: b := the low half of b * a, EX := the high half. -/
def execMul (b a : Operand) (s : State) : Host.Outcome State Fault Refusal :=
  .next (ordinary (arithExHandler mulValue mulEx) b a s)

/-- R145. DIV b, a: b := b / a, EX := the fractional part; both 0 when a = 0, and no fault (R283). -/
def execDiv (b a : Operand) (s : State) : Host.Outcome State Fault Refusal :=
  .next (ordinary (arithExHandler divValue divEx) b a s)

/-- R146. MOD b, a: b := b mod a, 0 when a = 0; EX is not written. -/
def execMod (b a : Operand) (s : State) : Host.Outcome State Fault Refusal :=
  .next (ordinary (arithHandler modValue) b a s)

/-- R147. AND b, a: b := b & a; EX is not written. -/
def execAnd (b a : Operand) (s : State) : Host.Outcome State Fault Refusal :=
  .next (ordinary (arithHandler andValue) b a s)

/-- R148. BOR b, a: b := b | a; EX is not written. -/
def execBor (b a : Operand) (s : State) : Host.Outcome State Fault Refusal :=
  .next (ordinary (arithHandler borValue) b a s)

/-- R149. XOR b, a: b := b ^ a; EX is not written. -/
def execXor (b a : Operand) (s : State) : Host.Outcome State Fault Refusal :=
  .next (ordinary (arithHandler xorValue) b a s)

/-- R150. SHL b, a: b := b << a, EX := the bits shifted out; the count is not reduced. -/
def execShl (b a : Operand) (s : State) : Host.Outcome State Fault Refusal :=
  .next (ordinary (arithExHandler shlValue shlEx) b a s)

/-- R151. SHR b, a: b := b >> a, EX := the bits shifted out; the count is not reduced. -/
def execShr (b a : Operand) (s : State) : Host.Outcome State Fault Refusal :=
  .next (ordinary (arithExHandler shrValue shrEx) b a s)

end Sys2Proof.Machine
end

