-- ==== Sys2Proof/Machine/Conditional.lean ====
section
/-! DEFINITION. The conditional instructions (42_conditional): each writes the skip latch and nothing else. -/

namespace Sys2Proof.Machine

/-- R180: `skip <- NOT predicate(b, a)`. -/
def conditionHandler (holds : Word → Word → Bool) (lb la : Location) (s : State) : State :=
  s.setSkip (!holds (s.getLoc lb) (s.getLoc la))

/-- R181. IFB b, a: execute next if any bit in common. -/
def execIfb (b a : Operand) (s : State) : Host.Outcome State Fault Refusal :=
  .next (ordinary (conditionHandler ifbHolds) b a s)

/-- R182. IFC b, a: execute next if no bit in common. -/
def execIfc (b a : Operand) (s : State) : Host.Outcome State Fault Refusal :=
  .next (ordinary (conditionHandler ifcHolds) b a s)

/-- R183. IFE b, a: execute next if equal. -/
def execIfe (b a : Operand) (s : State) : Host.Outcome State Fault Refusal :=
  .next (ordinary (conditionHandler ifeHolds) b a s)

/-- R184. IFN b, a: execute next if not equal. -/
def execIfn (b a : Operand) (s : State) : Host.Outcome State Fault Refusal :=
  .next (ordinary (conditionHandler ifnHolds) b a s)

/-- R185. IFG b, a: execute next if b > a, unsigned. -/
def execIfg (b a : Operand) (s : State) : Host.Outcome State Fault Refusal :=
  .next (ordinary (conditionHandler ifgHolds) b a s)

/-- R186. IFL b, a: execute next if b < a, unsigned. -/
def execIfl (b a : Operand) (s : State) : Host.Outcome State Fault Refusal :=
  .next (ordinary (conditionHandler iflHolds) b a s)

end Sys2Proof.Machine
end

