-- ==== Sys2Proof/Machine/Extended.lean ====
section
/-! DEFINITION. The extended instructions (43_extended): JSR, HLT, and the inert interrupt and hardware-bus forms. -/

namespace Sys2Proof.Machine

/-- R201: the return address, which is PC at handler time, is pushed, and PC becomes the operand, read after the push or
before it (P_JSR_READ_ORDER). -/
def callHandler (order : JsrReadOrder) (la : Location) (s : State) : State :=
  match order with
  | .afterPush => (s.push s.cpu.pc).setPc ((s.push s.cpu.pc).getLoc la)
  | .beforePush => (s.push s.cpu.pc).setPc (s.getLoc la)

/-- R202: `status <- Halted`; the operand's value is not used. -/
def haltHandler (_la : Location) (s : State) : State := s.setStatus .halted

/-- R203-R211: "a well-defined no-op, not a crash". -/
def inertExtendedHandler (_la : Location) (s : State) : State := s

/-- R201. JSR a: call with the return address on the stack. -/
def execJsr (a : Operand) (s : State) : Host.Outcome State Fault Refusal :=
  .next (extended (callHandler Config.jsrReadOrder) a s)

/-- R202. HLT a: the core halts. -/
def execHlt (a : Operand) (s : State) : Host.Outcome State Fault Refusal :=
  .next (extended haltHandler a s)

/-- R203. INT a: software-interrupt trigger, inert. -/
def execInt (a : Operand) (s : State) : Host.Outcome State Fault Refusal :=
  .next (extended inertExtendedHandler a s)

/-- R204. IAG a: interrupt-address get; the operand is not written, inert. -/
def execIag (a : Operand) (s : State) : Host.Outcome State Fault Refusal :=
  .next (extended inertExtendedHandler a s)

/-- R205. IAS a: interrupt-address set; the operand is not read, inert. -/
def execIas (a : Operand) (s : State) : Host.Outcome State Fault Refusal :=
  .next (extended inertExtendedHandler a s)

/-- R206. IAP a: interrupt-address conditional push; nothing is pushed, inert. -/
def execIap (a : Operand) (s : State) : Host.Outcome State Fault Refusal :=
  .next (extended inertExtendedHandler a s)

/-- R207. IAQ a: interrupt-queueing toggle, inert. -/
def execIaq (a : Operand) (s : State) : Host.Outcome State Fault Refusal :=
  .next (extended inertExtendedHandler a s)

/-- R208. HWN a: hardware enumeration; the operand is not written, inert. -/
def execHwn (a : Operand) (s : State) : Host.Outcome State Fault Refusal :=
  .next (extended inertExtendedHandler a s)

/-- R209. HWQ a: hardware query; no register is written, inert. -/
def execHwq (a : Operand) (s : State) : Host.Outcome State Fault Refusal :=
  .next (extended inertExtendedHandler a s)

/-- R210. HWI a: hardware interrupt; no device is signalled, inert. -/
def execHwi (a : Operand) (s : State) : Host.Outcome State Fault Refusal :=
  .next (extended inertExtendedHandler a s)

end Sys2Proof.Machine
end

