-- ==== Sys2Proof/Machine/Inert.lean ====
section
/-! DEFINITION. The declared but inert two-operand instructions (44_inert_basic): "The observable effect of executing one is
exactly the effect of resolving its operands" (R230). -/

namespace Sys2Proof.Machine

/-- R230: "the handler, if invoked, does nothing". -/
def inertHandler (_lb _la : Location) (s : State) : State := s

/-- R231. MLI b, a: declared (signed multiply), inert. -/
def execMli (b a : Operand) (s : State) : Host.Outcome State Fault Refusal :=
  .next (ordinary inertHandler b a s)

/-- R232. DVI b, a: declared (signed divide), inert. -/
def execDvi (b a : Operand) (s : State) : Host.Outcome State Fault Refusal :=
  .next (ordinary inertHandler b a s)

/-- R233. MDI b, a: declared (signed remainder), inert. -/
def execMdi (b a : Operand) (s : State) : Host.Outcome State Fault Refusal :=
  .next (ordinary inertHandler b a s)

/-- R234. ASR b, a: declared (arithmetic shift right), inert. -/
def execAsr (b a : Operand) (s : State) : Host.Outcome State Fault Refusal :=
  .next (ordinary inertHandler b a s)

/-- R235. ADX b, a: declared (add with carry in; EX is not read), inert. -/
def execAdx (b a : Operand) (s : State) : Host.Outcome State Fault Refusal :=
  .next (ordinary inertHandler b a s)

/-- R236. SBX b, a: declared (subtract with borrow in; EX is not read), inert. -/
def execSbx (b a : Operand) (s : State) : Host.Outcome State Fault Refusal :=
  .next (ordinary inertHandler b a s)

/-- R237. STI b, a: declared (store then increment; b, I and J are not written), inert. -/
def execSti (b a : Operand) (s : State) : Host.Outcome State Fault Refusal :=
  .next (ordinary inertHandler b a s)

/-- R238. STD b, a: declared (store then decrement; b, I and J are not written), inert. -/
def execStd (b a : Operand) (s : State) : Host.Outcome State Fault Refusal :=
  .next (ordinary inertHandler b a s)

end Sys2Proof.Machine
end

