-- ==== Sys2Proof/Machine/Engine.lean ====
section
/-! DEFINITION. The parts of a step around `exec`: the fetch (R252), the decoding of the fetched word (R253) and what the
step does with a word that decodes to none (R255). -/

namespace Sys2Proof.Machine

/-- R252: the instruction word, which is the Word at PC. -/
def State.fetchWord (s : State) : Word := s.nextWord.1

/-- R252: the state after the fetch: PC is advanced by one. -/
def State.afterFetch (s : State) : State := s.nextWord.2

/-- R253: the decoding of the instruction word at PC; it "depends on the word alone, not on skip, status or any mode". -/
def State.decoded (s : State) : Decoded := decode s.config s.fetchWord

/-- R251 from the fetch on, for the decoding of the fetched word: the instruction is run from the state after the fetch, and
a word that names no operation faults after its operands are resolved (R255). -/
def runDecoded (d : Decoded) (s : State) : Host.Outcome State Fault Refusal :=
  match d with
  | .instr i => exec i s.afterFetch
  | .invalidOrdinary op b a => .next (invalidOrdinary op b a s.afterFetch)
  | .invalidExtended disc a => .next (invalidExtended disc a s.afterFetch)

/-- R251: the step of a Running core, under the assignments OPCODE_MAP and EXT_MAP (R8). -/
def stepRunningWith (om : OpcodeMap) (em : ExtMap) (s : State) : Host.Outcome State Fault Refusal :=
  runDecoded (decodeWith om em s.config s.fetchWord) s

/-- R251: the step of a Running core, under the assignments of R80 and R82. -/
def stepRunning (s : State) : Host.Outcome State Fault Refusal := stepRunningWith opcodeMap extMap s

/-- R251, R260: one step of the core; while the status is not Running it changes nothing. -/
def stepCore (s : State) : Host.Outcome State Fault Refusal :=
  match s.cpu.status with
  | .running => stepRunning s
  | .halted => .next s
  | .faulted _ => .next s

/-- The state with the words of an instruction of the opcode table stored at PC, the instruction's first word at PC itself
and its operand words after it (addresses wrap, R25), and with P_HLT_OP set as the word's row of the table needs it. -/
def State.placeTableWord (s : State) (nbits w : Nat) : State :=
  { s with
    mem := ((s.mem.write s.cpu.pc (tableWord nbits w 0)).write (s.cpu.pc + 1) (tableWord nbits w 1)).write
      (s.cpu.pc + 2) (tableWord nbits w 2)
    config := tableConfig (tableWord nbits w 0) }

end Sys2Proof.Machine
end

