-- ==== Sys2Proof/Machine/Step.lean ====
section
/-! DEFINITION. One step of the machine (45_execution_engine R251), and the placing of one instruction where the next step
fetches it. -/

namespace Sys2Proof.Machine

/-- R250, R251: `step()`. Its outcome Ok, Halted or Fault(record) is read from the next state (`State.report`, R261). -/
def step (s : State) : Host.Outcome State Fault Refusal := stepCore s

/-- `s` with the instruction whose bits are `w` stored where the next step fetches (log entry 4). -/
def State.withFetchWord (s : State) (nbits w : Nat) : State := s.placeTableWord nbits w

end Sys2Proof.Machine
end

