-- ==== Sys2Proof/Machine/HostOps.lean ====
section
/-! DEFINITION. What the host does to the core between steps (45_execution_engine R250, R261, R265-R272;
70_reset_and_hazards R310-R313). -/

namespace Sys2Proof.Machine

/-- R261: the outcome that a step reports. -/
inductive Report where
  | ok
  | halted
  | fault (r : FaultRecord)
  deriving DecidableEq, Repr

/-- R261, R260: what a step that leaves this state reports: Halted and Faulted are reported by the step that enters them and
by every later one, and a completed or skipped instruction reports Ok. -/
def State.report (s : State) : Report :=
  match s.cpu.status with
  | .running => .ok
  | .halted => .halted
  | .faulted r => .fault r

/-- R312: `clear()`: every cell to 0x0000, and no register, latch or status changed. -/
def State.doClear (s : State) : State := { s with mem := Memory.zero }

/-- R270: the Words of a program written to the cells from `addr` on. -/
def Memory.writeFrom (m : Memory) (addr : Word) : List Word → Memory
  | [] => m
  | w :: rest => (m.write addr w).writeFrom (addr + 1) rest

/-- R270: `load(words)`: the words written from address 0; more than 65536 of them are refused. -/
def State.load (s : State) (words : List Word) : Host.Outcome State Fault Refusal :=
  if words.length ≤ 65536 then .next { s with mem := s.mem.writeFrom 0 words } else .refused .loadTooLong

/-- R271: the memory port's `read(addr)`. -/
def State.hostRead (s : State) (addr : Nat) : Except Refusal Word :=
  if addr < 65536 then .ok (s.memRead (BitVec.ofNat 16 addr)) else .error .addressOutOfRange

/-- R271: the memory port's `write(addr, value)`, the value truncated to 16 bits. -/
def State.hostWrite (s : State) (addr : Nat) (value : Int) : Host.Outcome State Fault Refusal :=
  if addr < 65536 then .next (s.memWrite (BitVec.ofNat 16 addr) (wrap16 value)) else .refused .addressOutOfRange

/-- 93_implementation_defined row 20: a read at the register-file interface; an index outside 0..7 is refused. -/
def State.hostReadReg (s : State) (index : Nat) : Except Refusal Word :=
  if index < 8 then .ok (s.reg (Reg.ofIndex (BitVec.ofNat 3 index))) else .error .registerIndexOutOfRange

/-- R272: the values of the register dump, in its fixed order A, B, C, X, Y, Z, I, J, PC, SP, EX; the string's separators and
letter case are not specified, so the model gives the values (log entry 8). -/
def State.dump (s : State) : List Word :=
  [s.reg .a, s.reg .b, s.reg .c, s.reg .x, s.reg .y, s.reg .z, s.reg .i, s.reg .j] ++ [s.cpu.pc, s.cpu.sp, s.cpu.ex]

/-- How a call of `run()` ends (R265, R267, R268). -/
inductive RunResult where
  /-- Two consecutive steps left PC and SP unchanged. -/
  | stopped (s : State)
  /-- A step reported Halted. -/
  | halted (s : State)
  /-- A step reported a fault. -/
  | fault (r : FaultRecord) (s : State)
  /-- The host stopped the run between two steps, the counter being `n` (R268). -/
  | interrupted (n : Nat) (s : State)
  /-- A step of the model refused; no step does. -/
  | refused (r : Refusal)
  deriving DecidableEq, Repr

/-- R265: the counter of consecutive steps that left PC and SP unchanged, after a step from `s` to `t`. -/
def stableCount (n : Nat) (s t : State) : Nat := if t.cpu.pc = s.cpu.pc ∧ t.cpu.sp = s.cpu.sp then n + 1 else 0

/-- R265: the loop of `run()`, which the host lets make at most `budget` steps (R268), entered with counter `n`. -/
def runFrom (budget n : Nat) (s : State) : RunResult :=
  match budget with
  | 0 => .interrupted n s
  | budget + 1 =>
    match step s with
    | .refused r => .refused r
    | .fault r => nomatch r
    | .next t =>
      match t.report with
      | .fault r => .fault r t
      | .halted => .halted t
      | .ok => if stableCount n s t = 2 then .stopped t else runFrom budget (stableCount n s t) t

/-- R265: `run()`, within a budget of steps. -/
def run (budget : Nat) (s : State) : RunResult := runFrom budget 0 s

/-- R274: the end state of a run that ends normally, which is when its status becomes Halted or `run()` returns Stopped. -/
def RunResult.endState : RunResult → Option State
  | .stopped s => some s
  | .halted s => some s
  | .fault _ _ => none
  | .interrupted _ _ => none
  | .refused _ => none

end Sys2Proof.Machine
end

