-- ==== Sys2Proof/Machine/System.lean ====
section
/-! DEFINITION. Several cores that share one Memory (20_memory R63, 45_execution_engine R273, 60_exceptions R294): an
interleaving of whole steps in the order the host chooses. -/

namespace Sys2Proof.Machine

/-- R273: each core has its own Register File, skip latch and status, and the Memory is the only shared state. -/
structure System where
  cores : List Cpu
  mem : Memory
  config : Config
  deriving DecidableEq, Repr

/-- Core `k` with the shared Memory, as one machine (R34). -/
def System.view (y : System) (k : Nat) : Option State :=
  y.cores[k]?.map fun cpu => { cpu := cpu, mem := y.mem, config := y.config }

/-- R273: core `k` makes one step; "each step() acts on its own core and the shared Memory". A core that the system has not
is refused by name: the spec is silent on such a call. DESIGN CHOICE (log entry 11). -/
def System.stepCore (y : System) (k : Nat) : Host.Outcome System Fault Refusal :=
  match y.view k with
  | none => .refused .noSuchCore
  | some s =>
    match step s with
    | .next t => .next { y with cores := y.cores.set k t.cpu, mem := t.mem }
    | .fault r => .fault r
    | .refused r => .refused r

/-- R63: the cores step in the order the host gives. -/
def System.schedule (y : System) : List Nat → Host.Outcome System Fault Refusal
  | [] => .next y
  | k :: order =>
    match y.stepCore k with
    | .next z => z.schedule order
    | .fault r => .fault r
    | .refused r => .refused r

/-- R312: "one clear() zero-fills the memory every sharing core sees". -/
def System.doClear (y : System) : System := { y with mem := Memory.zero }

/-- R271: the memory port of the shared Memory, `read(addr)`. -/
def System.hostRead (y : System) (addr : Nat) : Except Refusal Word :=
  if addr < 65536 then .ok (y.mem.read (BitVec.ofNat 16 addr)) else .error .addressOutOfRange

/-- R271: the memory port of the shared Memory, `write(addr, value)`, the value truncated to 16 bits. -/
def System.hostWrite (y : System) (addr : Nat) (value : Int) : Host.Outcome System Fault Refusal :=
  if addr < 65536 then .next { y with mem := y.mem.write (BitVec.ofNat 16 addr) (wrap16 value) }
  else .refused .addressOutOfRange

/-- R270: `load(words)` into the shared Memory. -/
def System.load (y : System) (words : List Word) : Host.Outcome System Fault Refusal :=
  if words.length ≤ 65536 then .next { y with mem := y.mem.writeFrom 0 words } else .refused .loadTooLong

/-- R310: `reset()` of core `k`; a core that the system has not is refused by name, as by `stepCore`. The spec is silent on
such a call. DESIGN CHOICE (log entry 11). -/
def System.resetCore (y : System) (k : Nat) : Host.Outcome System Fault Refusal :=
  if k < y.cores.length then .next { y with cores := y.cores.set k Cpu.reset } else .refused .noSuchCore

end Sys2Proof.Machine
end

