-- ==== Sys2Proof/Safety.lean ====
section
/-! DEFINITION. The terms in which claims about the machine are stated: the invariant of its runs, what resolving operands
leaves, and what an instruction writes and leaves unchanged. -/

namespace Sys2Proof

/-- R106, R107: what resolving the operand adds to SP: 1 for a pop, -1 for a push, and 0 for every other form. -/
def Operand.spMove (o : Operand) (p : Position) : Word :=
  match o, p with
  | .pushPop, .a => 1
  | .pushPop, .b => 0xFFFF
  | _, _ => 0

/-- The conditional instructions (R29). -/
def Instr.isConditional : Instr → Bool
  | .ifb _ _ | .ifc _ _ | .ife _ _ | .ifn _ _ | .ifg _ _ | .ifl _ _ => true
  | _ => false

/-- The instructions whose handler writes EX as its last action (R28). -/
def Instr.writesEx : Instr → Bool
  | .add _ _ | .sub _ _ | .mul _ _ | .div _ _ | .shl _ _ | .shr _ _ => true
  | _ => false

/-- The instructions that write their b operand (41_arith_logic R140). -/
def Instr.writesB : Instr → Bool
  | .set _ _ | .add _ _ | .sub _ _ | .mul _ _ | .div _ _ | .mod _ _ => true
  | .and _ _ | .bor _ _ | .xor _ _ | .shl _ _ | .shr _ _ => true
  | _ => false

/-- Whether an instruction is JSR (R201). -/
def Instr.isCall : Instr → Bool
  | .jsr _ => true
  | _ => false

/-- Whether an instruction is HLT (R202). -/
def Instr.isHalt : Instr → Bool
  | .hlt _ => true
  | _ => false

end Sys2Proof

namespace Sys2Proof.Machine

/-- R81: the primary opcode values that name no operation. -/
def unnamedOpcodes : List (BitVec 5) := [0x15, 0x17, 0x18, 0x19, 0x1C, 0x1D]

/-- R82-R84: the discriminants that name no operation under the parameters. -/
def unnamedDiscriminant (c : Config) (d : BitVec 5) : Prop := isFreeDiscriminant d = true ∧ c.hltCode ≠ some d

/-- The record of a fault that the machine can have taken when its PC is `pc` (R281, R284): an InvalidOpcode, with the PC at
detection, the code of a word that names no operation, and no position. -/
structure FaultRecord.Valid (c : Config) (pc : Word) (r : FaultRecord) : Prop where
  kind : r.kind = .invalidOpcode
  pc : r.pc = pc
  position : r.position = none
  code : ∃ d : BitVec 5, r.code = d.setWidth 6 ∧ (d ∈ unnamedOpcodes ∨ unnamedDiscriminant c d)

/-- The invariant of the machine: the memory is in canonical form (R36: every cell holds a Word, each written in one way), and
a Faulted core (R30, R31) holds a record that R281 describes. -/
structure State.Inv (s : State) : Prop where
  mem : s.mem.wf = true
  fault : ∀ r, s.cpu.status = .faulted r → r.Valid s.config s.cpu.pc

/-- `t` is the state that `k` steps lead to from `s`. -/
def Steps : Nat → State → State → Prop
  | 0, s, t => t = s
  | k + 1, s, t => ∃ u, step s = .next u ∧ Steps k u t

/-- R265: a step from `s` to `t` "leaves PC and SP unchanged". -/
def Stable (s t : State) : Prop := t.cpu.pc = s.cpu.pc ∧ t.cpu.sp = s.cpu.sp

/-- The state with PC moved by `words` and SP by `move`, each modulo 65536 (R25, R27), and nothing else changed. -/
def State.advance (s : State) (words : Nat) (move : Word) : State :=
  { s with cpu := { s.cpu with pc := s.cpu.pc + BitVec.ofNat 16 words, sp := s.cpu.sp + move } }

/-- What resolving the operands of an instruction does to PC and SP (R100), and nothing else. -/
def State.afterOperands (s : State) (i : Instr) : State :=
  match i.bOperand with
  | some b => s.advance (i.aOperand.words + b.words) (i.aOperand.spMove .a + b.spMove .b)
  | none => s.advance i.aOperand.words (i.aOperand.spMove .a)

/-- `t` is `s` with the Word `v` in the Location `l` and `e` in EX, and with nothing else changed: every register, SP, PC,
the latch, the status, the parameters, and every cell of memory but the Location's own. A write to a Literal changes
nothing (R122). -/
structure WritesOnly (l : Location) (v e : Word) (s t : State) : Prop where
  reg : ∀ r, t.reg r = if l = .register r then v else s.reg r
  pc : t.cpu.pc = if l = .programCounter then v else s.cpu.pc
  sp : t.cpu.sp = if l = .stackPointer then v else s.cpu.sp
  ex : t.cpu.ex = e
  skip : t.cpu.skip = s.cpu.skip
  status : t.cpu.status = s.cpu.status
  config : t.config = s.config
  mem : ∀ x, t.memRead x = if l.cell = some x then v else s.memRead x

/-- The frame of R140 for an instruction that stores a result in b: on operands that its form admits, executed (skip false),
it resolves a and b (to `la`, `lb`, leaving `s1`), reads them as `y` and `x`, and ends in a next state in which b's Location
holds `value x y` and EX holds `ex x y`, where `ex` is given, and what the write to b left, where it is not (R152); nothing
else is changed. -/
def StoresResult (mk : Operand → Operand → Instr) (value : Nat → Nat → Nat) (ex : Option (Nat → Nat → Nat)) : Prop :=
  ∀ (b a : Operand) (s : State), b.legalIn .b = true → s.cpu.skip = false → s.mem.wf = true →
    ∃ lb la s1 t v e,
      resolveBoth b a s = .resolved (lb, la) s1 ∧ s1 = s.afterOperands (mk b a) ∧ exec (mk b a) s = .next t ∧
      v.toNat = value (s1.getLoc lb).toNat (s1.getLoc la).toNat ∧
      (match ex with
        | some f => e.toNat = f (s1.getLoc lb).toNat (s1.getLoc la).toNat
        | none => e = if lb = .overflow then v else s1.cpu.ex) ∧
      WritesOnly lb v e s1 t

/-- The encoding clause of an ordinary instruction's rule: `w = op | b<<5 | a<<10` decodes to it, for every b code and every
a code (R70, R87), whatever the parameters. -/
def OrdinaryEncoding (op : BitVec 5) (mk : Operand → Operand → Instr) : Prop :=
  ∀ (c : Config) (b : BitVec 5) (a : BitVec 6),
    decode c (op.setWidth 16 ||| (b.setWidth 16 <<< 5) ||| (a.setWidth 16 <<< 10)) =
      .instr (mk (Operand.ofCode (b.setWidth 6)) (Operand.ofCode a))

/-- The encoding clause of an extended instruction's rule: op = 0 and the discriminant in w[9:5] (R72). -/
def ExtendedEncoding (disc : BitVec 5) (mk : Operand → Instr) : Prop :=
  ∀ (c : Config) (a : BitVec 6),
    decode c ((disc.setWidth 16 <<< 5) ||| (a.setWidth 16 <<< 10)) = .instr (mk (Operand.ofCode a))

/-- R180: on operands that its form admits, executed (skip false), the instruction resolves a and b, reads them as `y` and `x`,
sets the skip latch to NOT `holds x y`, and changes nothing else. -/
def SetsSkip (mk : Operand → Operand → Instr) (holds : Nat → Nat → Bool) : Prop :=
  ∀ (b a : Operand) (s : State), b.legalIn .b = true → s.cpu.skip = false →
    ∃ lb la s1, resolveBoth b a s = .resolved (lb, la) s1 ∧ s1 = s.afterOperands (mk b a) ∧
      exec (mk b a) s = .next { s1 with cpu :=
        { s1.cpu with skip := !holds (s1.getLoc lb).toNat (s1.getLoc la).toNat } }

/-- R230: the step resolves both operands, "the skip test runs as for every instruction", and the handler, if invoked, "does
nothing": "The observable effect of executing one is exactly the effect of resolving its operands." -/
def OnlyResolves (mk : Operand → Operand → Instr) : Prop :=
  ∀ (b a : Operand) (s : State), b.legalIn .b = true →
    (s.cpu.skip = false → exec (mk b a) s = .next (s.afterOperands (mk b a))) ∧
    (s.cpu.skip = true → exec (mk b a) s =
      .next { s.afterOperands (mk b a) with cpu := { (s.afterOperands (mk b a)).cpu with skip := false } })

/-- R211: an inert extended form has no "effect beyond operand resolution", executed or skipped. -/
def OnlyResolvesA (mk : Operand → Instr) : Prop :=
  ∀ (a : Operand) (s : State),
    (s.cpu.skip = false → exec (mk a) s = .next (s.afterOperands (mk a))) ∧
    (s.cpu.skip = true → exec (mk a) s =
      .next { s.afterOperands (mk a) with cpu := { (s.afterOperands (mk a)).cpu with skip := false } })

/-- The Location that an executed instruction's handler writes with its b operand (R140), from the state that the fetch
left; none for the instructions that write none. -/
def State.target (s : State) (i : Instr) : Option Location :=
  match i.bOperand, i.writesB with
  | some b, true =>
    match resolveBoth b i.aOperand s with
    | .resolved (lb, _) _ => some lb
    | .illegal _ _ _ => none
  | _, _ => none

/-- The one memory cell that an executed instruction stores to (R60), from the state that the fetch left: the cell of its b
Location, or, for JSR, the cell under the stack pointer that resolving its operand left (R201). -/
def State.storeCell (s : State) (i : Instr) : Option Word :=
  if i.isCall then some ((s.afterOperands i).cpu.sp - 1) else (s.target i).bind Location.cell

end Sys2Proof.Machine
end

