-- ==== Sys2Proof/Certificates/Slice0/Obligations.lean ====
section
/-! DEFINITION. The statements for the provers, each formalising rules of spec/. The opcode values in the encoding clauses
are those of R80 and R82, which the spec decides (D1, D2; log entry 5). -/

open Sys2Proof Sys2Proof.Machine

/-- R37, R310, R312. After reset every register is 0, skip is false, the status is Running, no fault is recorded, every
cell is 0. The memory clause and the last clause are the model's choices (log entries 2 and 3). -/
def Obligations.ResetStateHoldsTheResetValues : Prop :=
  (∀ r, State.reset.reg r = 0) ∧ State.reset.cpu.pc = 0 ∧ State.reset.cpu.sp = 0 ∧ State.reset.cpu.ex = 0 ∧
    State.reset.cpu.skip = false ∧ State.reset.cpu.status = .running ∧ State.reset.faultRecord = none ∧
    (∀ x, State.reset.memRead x = 0) ∧ State.reset.config.hltOp = none

/-- R36, R37, R281. The state after reset meets the invariant of the machine. -/
def Obligations.ResetStateMeetsTheInvariant : Prop :=
  State.reset.Inv

/-- R36, R281, R284, R260. Every step from a state that meets the invariant ends in one that meets it. -/
def Obligations.StepKeepsTheInvariant : Prop :=
  ∀ s t : State, s.Inv → step s = .next t → t.Inv

/-- R70, R74, R75, R80, R82, R83, R87. Every well-formed instruction has a word, and the word decodes to it. -/
def Obligations.DecodeOfEncodeIsTheInstruction : Prop :=
  ∀ (c : Config) (i : Instr), i.wellFormed c = true → ∃ w, encode c i = some w ∧ decode c w = .instr i

/-- R70, R74, R75, R80, R82, R83, R85. A word that decodes to an instruction is that instruction's word, and the
instruction is well-formed. -/
def Obligations.EncodeOfDecodeIsTheWord : Prop :=
  ∀ (c : Config) (w : Word) (i : Instr), decode c w = .instr i → i.wellFormed c = true ∧ encode c i = some w

/-- R70, R81, R83, R84, R85, R87. A word is invalid exactly when its opcode or its discriminant names no operation, and it
is then rejected by that name. -/
def Obligations.DecoderRejectsExactlyTheUnnamedWords : Prop :=
  ∀ (c : Config) (w : Word),
    let op := BitVec.ofNat 5 w.toNat
    let d := BitVec.ofNat 5 (w.toNat / 32)
    let a := Operand.ofCode (BitVec.ofNat 6 (w.toNat / 1024))
    (op ∈ unnamedOpcodes → decode c w = .invalidOrdinary op (Operand.ofCode (d.setWidth 6)) a) ∧
    (op = 0 ∧ unnamedDiscriminant c d → decode c w = .invalidExtended d a) ∧
    (op ∉ unnamedOpcodes ∧ ¬ (op = 0 ∧ unnamedDiscriminant c d) → ∃ i, decode c w = .instr i)

/-- R70, R72, R80, R82, R83, R87. For every operand code of both fields, each opcode and discriminant value decodes to its
instruction with those operands. The op and discriminant values are those that the spec assigns by its decisions D1
and D2 (log entry 5). -/
def Obligations.EveryOpcodeValueNamesItsInstruction : Prop :=
  OrdinaryEncoding 0x01 Instr.set ∧ OrdinaryEncoding 0x02 Instr.add ∧ OrdinaryEncoding 0x03 Instr.sub ∧
    OrdinaryEncoding 0x04 Instr.mul ∧ OrdinaryEncoding 0x05 Instr.mli ∧ OrdinaryEncoding 0x06 Instr.div ∧
    OrdinaryEncoding 0x07 Instr.dvi ∧ OrdinaryEncoding 0x08 Instr.mod ∧ OrdinaryEncoding 0x09 Instr.mdi ∧
    OrdinaryEncoding 0x0A Instr.and ∧ OrdinaryEncoding 0x0B Instr.bor ∧ OrdinaryEncoding 0x0C Instr.xor ∧
    OrdinaryEncoding 0x0D Instr.shr ∧ OrdinaryEncoding 0x0E Instr.asr ∧ OrdinaryEncoding 0x0F Instr.shl ∧
    OrdinaryEncoding 0x10 Instr.ifb ∧ OrdinaryEncoding 0x11 Instr.ifc ∧ OrdinaryEncoding 0x12 Instr.ife ∧
    OrdinaryEncoding 0x13 Instr.ifn ∧ OrdinaryEncoding 0x14 Instr.ifg ∧ OrdinaryEncoding 0x16 Instr.ifl ∧
    OrdinaryEncoding 0x1A Instr.adx ∧ OrdinaryEncoding 0x1B Instr.sbx ∧ OrdinaryEncoding 0x1E Instr.sti ∧
    OrdinaryEncoding 0x1F Instr.std ∧
    ExtendedEncoding 0x01 Instr.jsr ∧ ExtendedEncoding 0x08 Instr.int ∧ ExtendedEncoding 0x09 Instr.iag ∧
    ExtendedEncoding 0x0A Instr.ias ∧ ExtendedEncoding 0x0B Instr.iap ∧ ExtendedEncoding 0x0C Instr.iaq ∧
    ExtendedEncoding 0x10 Instr.hwn ∧ ExtendedEncoding 0x11 Instr.hwq ∧ ExtendedEncoding 0x12 Instr.hwi ∧
    ∀ (c : Config) (h : HltOp) (a : BitVec 6), c.hltOp = some h →
      decode c ((h.code.setWidth 16 <<< 5) ||| (a.setWidth 16 <<< 10)) = .instr (.hlt (Operand.ofCode a))

/-- R70, R75, R80, R82, R84, 95_test_vectors.md section 2. Each of the 15 encoding vectors of 95_test_vectors section 2,
and words of the inert families, decodes as the spec says. -/
def Obligations.WordsOfTheSpecDecodeAsTheSpecSays : Prop :=
  ∀ c : Config,
    decode c 0x0041 = .instr (.set (.reg .c) (.reg .a)) ∧
    decode c 0x2021 = .instr (.set (.reg .b) (.ind .a)) ∧
    decode c 0x7C01 = .instr (.set (.reg .a) .litNext) ∧
    decode c 0x7FC1 = .instr (.set .memNext .litNext) ∧
    decode c 0x7BC1 = .instr (.set .memNext .memNext) ∧
    decode c 0x7EC1 = .instr (.set (.indNext .i) .litNext) ∧
    decode c 0x22C1 = .instr (.set (.indNext .i) (.ind .a)) ∧
    decode c 0x6381 = .instr (.set .pc .pushPop) ∧
    decode c 0x8B83 = .instr (.sub .pc (.inline 2)) ∧
    decode c 0xC413 = .instr (.ifn (.reg .a) (.inline 0x11)) ∧
    decode c 0x9405 = .instr (.mli (.reg .a) (.inline 5)) ∧
    decode c 0x7C20 = .instr (.jsr .litNext) ∧
    decode c 0x6020 = .instr (.jsr .pushPop) ∧
    decode c 0x6100 = .instr (.int .pushPop) ∧
    decode c 0x0200 = .instr (.hwn (.reg .a)) ∧
    decode c 0x0015 = .invalidOrdinary 0x15 (.reg .a) (.reg .a) ∧
    (c.hltCode ≠ some 0 → decode c 0x0000 = .invalidExtended 0 (.reg .a) ∧ decode c 0x7C00 = .invalidExtended 0 .litNext)

/-- R88, R105, R109, R113, R114. The length of an instruction is 1 plus one Word for each word-consuming operand code. -/
def Obligations.InstructionLengthFollowsFromTheCodes : Prop :=
  let n : Nat → Nat := fun k => if (0x10 ≤ k ∧ k ≤ 0x17) ∨ k = 0x1A ∨ k = 0x1E ∨ k = 0x1F then 1 else 0
  ∀ (c : Config) (op b : BitVec 5) (a : BitVec 6) (i : Instr),
    decode c (op.setWidth 16 ||| (b.setWidth 16 <<< 5) ||| (a.setWidth 16 <<< 10)) = .instr i →
      i.length = (if op = 0 then 1 + n a.toNat else 1 + n a.toNat + n b.toNat) ∧ 1 ≤ i.length ∧ i.length ≤ 3

/-- R251, R252, R253, R87. A step of a Running core runs the instruction that the Word at PC decodes to, PC having been
advanced by one. -/
def Obligations.StepRunsTheDecodedInstruction : Prop :=
  ∀ (s : State) (i : Instr), s.cpu.status = .running → decode s.config (s.memRead s.cpu.pc) = .instr i →
    step s = exec i { s with cpu := { s.cpu with pc := s.cpu.pc + 1 } }

/-- R30, R260, R261, R296. While the status is not Running a step changes nothing, and it reports Halted or the recorded
fault again. -/
def Obligations.QuiescentCoreIgnoresSteps : Prop :=
  (∀ s : State, s.cpu.status = .halted → step s = .next s ∧ s.report = .halted) ∧
    ∀ (s : State) (r : FaultRecord), s.cpu.status = .faulted r → step s = .next s ∧ s.report = .fault r

/-- R102, R103, R104, R105, R108, R109, R110, R111, R112, R113, R114, R115. Each operand code but 0x18 resolves to the
Location of its row, consuming its next word where it has one. -/
def Obligations.OperandFormsResolveAsTheTableSays : Prop :=
  ∀ (s : State) (p : Position) (v : Word),
    let n := s.memRead s.cpu.pc
    let s1 : State := { s with cpu := { s.cpu with pc := s.cpu.pc + 1 } }
    (∀ (k : Nat) (r : Reg), [Reg.a, .b, .c, .x, .y, .z, .i, .j][k]? = some r →
      resolve (.ofCode (BitVec.ofNat 6 k)) p s = (some (.register r), s) ∧
      resolve (.ofCode (BitVec.ofNat 6 (0x08 + k))) p s = (some (.memoryCell (s.reg r)), s) ∧
      resolve (.ofCode (BitVec.ofNat 6 (0x10 + k))) p s = (some (.memoryCell (n + s.reg r)), s1) ∧
      s.getLoc (.register r) = s.reg r) ∧
    resolve (.ofCode 0x19) p s = (some (.stackPeek s.cpu.sp), s) ∧
    resolve (.ofCode 0x1A) p s = (some (.memoryCell (s.cpu.sp + n)), s1) ∧
    resolve (.ofCode 0x1B) p s = (some .stackPointer, s) ∧
    resolve (.ofCode 0x1C) p s = (some .programCounter, s) ∧
    resolve (.ofCode 0x1D) p s = (some .overflow, s) ∧
    resolve (.ofCode 0x1E) p s = (some (.memoryCell n), s1) ∧
    resolve (.ofCode 0x1F) p s = (some (.literal n), s1) ∧
    (∀ k : Nat, 0x20 ≤ k → k < 0x40 →
      ∃ u, resolve (.ofCode (BitVec.ofNat 6 k)) .a s = (some (.literal u), s) ∧ u.toNat = (k + 65536 - 0x21) % 65536) ∧
    s.getLoc .stackPointer = s.cpu.sp ∧ s.setLoc .stackPointer v = { s with cpu := { s.cpu with sp := v } } ∧
    s.getLoc .programCounter = s.cpu.pc ∧ s.setLoc .programCounter v = { s with cpu := { s.cpu with pc := v } } ∧
    s.getLoc .overflow = s.cpu.ex ∧ s.setLoc .overflow v = { s with cpu := { s.cpu with ex := v } }

/-- R106, R107. In b position code 0x18 decrements SP and names the new top; in a position it names the old top and
increments SP. -/
def Obligations.PushAndPopMoveTheStackPointer : Prop :=
  ∀ s : State,
    (∃ t : Word, t.toNat = (s.cpu.sp.toNat + 65535) % 65536 ∧
      resolve (.ofCode 0x18) .b s = (some (.stackPush t), { s with cpu := { s.cpu with sp := t } }) ∧
      (s.cpu.sp.toNat = 0 → t.toNat = 0xFFFF)) ∧
    (∃ t : Word, t.toNat = (s.cpu.sp.toNat + 1) % 65536 ∧
      resolve (.ofCode 0x18) .a s = (some (.stackPop s.cpu.sp), { s with cpu := { s.cpu with sp := t } }) ∧
      (s.cpu.sp.toNat = 0xFFFF → t.toNat = 0))

/-- R118, R123, R124, R125. ADD PUSH, POP doubles the top of the stack in place; SET PUSH, PEEK duplicates it; SET PUSH,
SP stores the new SP. -/
def Obligations.StackOperandsOfOneInstructionInteract : Prop :=
  ∀ s : State, s.cpu.skip = false → s.mem.wf = true →
    (∃ t, exec (.add .pushPop .pushPop) s = .next t ∧ t.cpu.sp = s.cpu.sp ∧ t.cpu.pc = s.cpu.pc ∧ t.cpu.gpr = s.cpu.gpr ∧
      ∀ x, (t.memRead x).toNat = if x = s.cpu.sp then 2 * (s.memRead x).toNat % 65536 else (s.memRead x).toNat) ∧
    (∃ t, exec (.set .pushPop .peek) s = .next t ∧ t.cpu.sp = s.cpu.sp - 1 ∧ t.cpu.pc = s.cpu.pc ∧ t.cpu.gpr = s.cpu.gpr ∧
      ∀ x, t.memRead x = if x = s.cpu.sp - 1 then s.memRead s.cpu.sp else s.memRead x) ∧
    (∃ t, exec (.set .pushPop .sp) s = .next t ∧ t.cpu.sp = s.cpu.sp - 1 ∧ t.cpu.pc = s.cpu.pc ∧ t.cpu.gpr = s.cpu.gpr ∧
      ∀ x, t.memRead x = if x = s.cpu.sp - 1 then s.cpu.sp - 1 else s.memRead x)

/-- R141. SET stores a in b and writes no EX and no latch. -/
def Obligations.SetMovesTheSourceAndLeavesEx : Prop :=
  StoresResult Instr.set
      (fun _ y => y)
      none

/-- R142, R143. ADD and SUB store the wrapped sum and difference in b and the carry and borrow in EX. -/
def Obligations.AddAndSubStoreResultAndCarry : Prop :=
  StoresResult Instr.add
      (fun x y => (x + y) % 65536)
      (some fun x y => if x + y > 65535 then 1 else 0) ∧
    StoresResult Instr.sub
      (fun x y => (x + 65536 - y) % 65536)
      (some fun x y => if x < y then 65535 else 0)

/-- R144. MUL stores the low half of the product in b and the high half in EX. -/
def Obligations.MulStoresBothHalves : Prop :=
  StoresResult Instr.mul
      (fun x y => x * y % 65536)
      (some fun x y => x * y / 65536 % 65536)

/-- R145, R283. DIV stores the floor quotient in b and the fractional part in EX, and 0 in both where the divisor is 0. -/
def Obligations.DivStoresQuotientAndFraction : Prop :=
  StoresResult Instr.div
      (fun x y => if y = 0 then 0 else x / y)
      (some fun x y => if y = 0 then 0 else x * 65536 / y % 65536)

/-- R146. MOD stores the remainder in b, 0 where the divisor is 0, and leaves EX alone. -/
def Obligations.ModStoresTheRemainderAndLeavesEx : Prop :=
  StoresResult Instr.mod
      (fun x y => if y = 0 then 0 else x % y)
      none

/-- R147, R148, R149. AND, BOR and XOR store the bitwise result in b and leave EX alone. -/
def Obligations.LogicStoresTheBitwiseResult : Prop :=
  StoresResult Instr.and
      (fun x y => x &&& y)
      none ∧
    StoresResult Instr.bor
      (fun x y => x ||| y)
      none ∧
    StoresResult Instr.xor
      (fun x y => x ^^^ y)
      none

/-- R150, R151. SHL and SHR store the shifted value in b and the bits shifted out in EX, the count not reduced. -/
def Obligations.ShiftsStoreResultAndBitsShiftedOut : Prop :=
  StoresResult Instr.shl
      (fun x y => x * 2 ^ y % 65536)
      (some fun x y => x * 2 ^ y / 65536 % 65536) ∧
    StoresResult Instr.shr
      (fun x y => x / 2 ^ y)
      (some fun x y => x * 65536 / 2 ^ y % 65536)

/-- R150, R151, R155. A shift by 32 or more leaves 0 in b and 0 in EX. -/
def Obligations.ShiftCountsOf32OrMoreClearBoth : Prop :=
  ∀ (mk : Operand → Operand → Instr) (b a : Operand) (s s1 : State) (lb la : Location), mk ∈ [Instr.shl, Instr.shr] →
    s.cpu.skip = false → s.mem.wf = true → resolveBoth b a s = .resolved (lb, la) s1 → 32 ≤ (s1.getLoc la).toNat →
      ∃ t, exec (mk b a) s = .next t ∧ WritesOnly lb 0 0 s1 t

/-- R155, R145, R146. For a divisor other than 0, dividend = quotient * divisor + remainder, and the remainder is less
than the divisor. -/
def Obligations.QuotientAndRemainderRebuildTheDividend : Prop :=
  ∀ (r : Reg) (a : Operand) (s s1 : State) (la : Location), s.cpu.skip = false → resolveA a s = .resolved la s1 →
    (s1.getLoc la).toNat ≠ 0 →
      ∃ t u, exec (.div (.reg r) a) s = .next t ∧ exec (.mod (.reg r) a) s = .next u ∧
        (s.reg r).toNat = (t.reg r).toNat * (s1.getLoc la).toNat + (u.reg r).toNat ∧
        (u.reg r).toNat < (s1.getLoc la).toNat

/-- R122, R153, R114. An instruction that writes b changes no register and no cell where b is a Literal, and EX only if it
writes EX. -/
def Obligations.LiteralDestinationDiscardsTheResult : Prop :=
  ∀ (i : Instr) (s : State), i.writesB = true → i.bOperand = some .litNext → s.cpu.skip = false →
    ∃ t, exec i s = .next t ∧ t.cpu.gpr = s.cpu.gpr ∧ t.mem = s.mem ∧ t.cpu.pc = (s.afterOperands i).cpu.pc ∧
      t.cpu.sp = (s.afterOperands i).cpu.sp ∧ t.cpu.skip = false ∧ t.cpu.status = s.cpu.status ∧
      (i.writesEx = false → t.cpu.ex = s.cpu.ex)

/-- R180. Each conditional sets the skip latch to the negation of its unsigned predicate and changes nothing else. -/
def Obligations.ConditionalsSetSkipToNotPredicate : Prop :=
  SetsSkip Instr.ifb (fun x y => x &&& y != 0) ∧
    SetsSkip Instr.ifc (fun x y => x &&& y == 0) ∧
    SetsSkip Instr.ife (fun x y => x == y) ∧
    SetsSkip Instr.ifn (fun x y => x != y) ∧
    SetsSkip Instr.ifg (fun x y => decide (x > y)) ∧
    SetsSkip Instr.ifl (fun x y => decide (x < y))

/-- R230. MLI, DVI, MDI, ASR, ADX, SBX, STI and STD do exactly what resolving their operands does. -/
def Obligations.InertOrdinaryInstructionsOnlyResolve : Prop :=
  OnlyResolves Instr.mli ∧
    OnlyResolves Instr.dvi ∧
    OnlyResolves Instr.mdi ∧
    OnlyResolves Instr.asr ∧
    OnlyResolves Instr.adx ∧
    OnlyResolves Instr.sbx ∧
    OnlyResolves Instr.sti ∧
    OnlyResolves Instr.std

/-- R203, R204, R205, R206, R207, R208, R209, R210, R211. INT, IAG, IAS, IAP, IAQ, HWN, HWQ and HWI do exactly what
resolving their operand does. -/
def Obligations.InertExtendedInstructionsOnlyResolve : Prop :=
  OnlyResolvesA Instr.int ∧
    OnlyResolvesA Instr.iag ∧
    OnlyResolvesA Instr.ias ∧
    OnlyResolvesA Instr.iap ∧
    OnlyResolvesA Instr.iaq ∧
    OnlyResolvesA Instr.hwn ∧
    OnlyResolvesA Instr.hwq ∧
    OnlyResolvesA Instr.hwi

/-- R201, R200, R118. JSR pushes the address of the next instruction and sets PC to its operand, read after the push. -/
def Obligations.JsrPushesTheReturnAddressAndJumps : Prop :=
  ∀ (a : Operand) (s : State), s.cpu.skip = false → s.mem.wf = true →
      ∃ la s1 t, resolveA a s = .resolved la s1 ∧ s1 = s.afterOperands (.jsr a) ∧ exec (.jsr a) s = .next t ∧
        t.cpu.sp = s1.cpu.sp - 1 ∧ s.storeCell (.jsr a) = some (s1.cpu.sp - 1) ∧
        (∀ x, t.memRead x = if x = s1.cpu.sp - 1 then s1.cpu.pc else s.memRead x) ∧
        t.cpu.pc = (if la = .stackPointer then s1.cpu.sp - 1
          else if la.cell = some (s1.cpu.sp - 1) then s1.cpu.pc else s1.getLoc la) ∧
        t.cpu.gpr = s.cpu.gpr ∧ t.cpu.ex = s.cpu.ex ∧ t.cpu.skip = false ∧ t.cpu.status = s.cpu.status

/-- R201, R8. Reading JSR's operand before or after the push differs only for the operand SP and for the cell the push
writes. -/
def Obligations.JsrReadOrderMattersOnlyForSpAndThePushedCell : Prop :=
  ∀ (la : Location) (s : State), s.mem.wf = true →
    (la ≠ .stackPointer → la.cell ≠ some (s.cpu.sp - 1) →
      callHandler .afterPush la s = callHandler .beforePush la s) ∧
    (la = .stackPointer → callHandler .afterPush la s ≠ callHandler .beforePush la s) ∧
    (la.cell = some (s.cpu.sp - 1) →
      (callHandler .afterPush la s = callHandler .beforePush la s ↔ s.memRead (s.cpu.sp - 1) = s.cpu.pc))

/-- R201, R107, R91, R141. SET PC, POP after JSR comes back to the next instruction with SP as it was. -/
def Obligations.ReturnUndoesCall : Prop :=
  ∀ (a : Operand) (s : State), s.cpu.skip = false → s.mem.wf = true →
    ∃ t u, exec (.jsr a) s = .next t ∧ exec (.set .pc .pushPop) t = .next u ∧
      u.cpu.pc = (s.afterOperands (.jsr a)).cpu.pc ∧ u.cpu.sp = (s.afterOperands (.jsr a)).cpu.sp ∧
      u.cpu.gpr = s.cpu.gpr ∧ u.cpu.ex = s.cpu.ex ∧ u.mem = t.mem

/-- R202, R260, R296. HLT resolves its operand, sets the status Halted and changes nothing else, and later steps change
nothing. -/
def Obligations.HltHaltsTheCore : Prop :=
  ∀ (a : Operand) (s : State), s.cpu.skip = false →
      ∃ t : State, t = { s with cpu := { (s.afterOperands (.hlt a)).cpu with status := .halted } } ∧
        exec (.hlt a) s = .next t ∧ step t = .next t

/-- R256. A skipped instruction consumes its operand words and moves SP, clears the latch, does nothing else and reports
Ok. -/
def Obligations.SkippedInstructionOnlyResolvesItsOperands : Prop :=
  ∀ (s : State) (i : Instr), s.cpu.status = .running → s.cpu.skip = true → decode s.config (s.memRead s.cpu.pc) = .instr i →
    ∃ t, step s = .next t ∧ t.report = .ok ∧
      t = { s with cpu := { s.cpu with
        pc := s.cpu.pc + BitVec.ofNat 16 i.length
        sp := (s.afterOperands i).cpu.sp
        skip := false } }

/-- R259, R24, R88. After a step PC is past the instruction, unless the instruction was executed and wrote PC. -/
def Obligations.PcAfterAStepIsTheNextInstruction : Prop :=
  ∀ (s t : State) (i : Instr), s.cpu.status = .running → decode s.config (s.memRead s.cpu.pc) = .instr i →
    step s = .next t → ¬ (s.cpu.skip = false ∧ (i.isCall = true ∨ (i.writesB = true ∧ i.bOperand = some .pc))) →
      t.cpu.pc.toNat = (s.cpu.pc.toNat + i.length) % 65536

/-- R29, R187, R258. A set latch is cleared by the next step that completes, and only an executed conditional sets it. -/
def Obligations.SkipLatchIsOneShot : Prop :=
  ∀ (s t : State) (i : Instr), s.cpu.status = .running → decode s.config (s.memRead s.cpu.pc) = .instr i →
    step s = .next t →
      (s.cpu.skip = true → t.cpu.skip = false) ∧ (s.cpu.skip = false → t.cpu.skip = true → i.isConditional = true)

/-- R30, R261, R281. A step enters Halted exactly by an executed HLT, Faulted exactly by a word that names no operation,
and else reports Ok. -/
def Obligations.StatusChangesOnlyByHltAndInvalidWords : Prop :=
  ∀ s t : State, s.cpu.status = .running → step s = .next t →
    (t.cpu.status = .halted ↔ s.cpu.skip = false ∧ ∃ a, decode s.config (s.memRead s.cpu.pc) = .instr (.hlt a)) ∧
    ((∃ r, t.cpu.status = .faulted r) ↔ ∀ i, decode s.config (s.memRead s.cpu.pc) ≠ .instr i) ∧
    (t.report = .ok ↔ ∃ i, decode s.config (s.memRead s.cpu.pc) = .instr i ∧ (s.cpu.skip = true ∨ i.isHalt = false))

/-- R255, R280, R281, R285, R286, R321. A word that names no operation faults after its operands are resolved, whether or
not it is being skipped. -/
def Obligations.InvalidWordFaultsAfterItsOperandsAreResolved : Prop :=
  (∀ (s : State) (op : BitVec 5) (b a : Operand), s.cpu.status = .running →
      decode s.config (s.memRead s.cpu.pc) = .invalidOrdinary op b a →
      ∃ p : Word, p.toNat = (s.cpu.pc.toNat + 1 + a.words + b.words) % 65536 ∧
        step s = .next { s with cpu := { s.cpu with
          pc := p
          sp := s.cpu.sp + a.spMove .a + b.spMove .b
          status := .faulted { kind := .invalidOpcode, pc := p, code := op.setWidth 6, position := none } } }) ∧
    ∀ (s : State) (d : BitVec 5) (a : Operand), s.cpu.status = .running →
      decode s.config (s.memRead s.cpu.pc) = .invalidExtended d a →
      ∃ p : Word, p.toNat = (s.cpu.pc.toNat + 1 + a.words) % 65536 ∧
        step s = .next { s with cpu := { s.cpu with
          pc := p
          sp := s.cpu.sp + a.spMove .a
          status := .faulted { kind := .invalidOpcode, pc := p, code := d.setWidth 6, position := none } } }

/-- R84, R281, R83. The all-zero word is an InvalidOpcode with code 0, unless P_HLT_OP is 0. -/
def Obligations.ZeroWordFaults : Prop :=
  ∀ s : State, s.cpu.status = .running → s.memRead s.cpu.pc = 0 → s.config.hltCode ≠ some 0 →
    step s = .next { s with cpu := { s.cpu with
      pc := s.cpu.pc + 1
      status := .faulted { kind := .invalidOpcode, pc := s.cpu.pc + 1, code := 0, position := none } } }

/-- R282, R86, R74. No step of any Running core raises InvalidOperandCode. -/
def Obligations.InvalidOperandCodeIsUnreachable : Prop :=
  ∀ (s t : State) (r : FaultRecord), s.cpu.status = .running → step s = .next t → t.cpu.status = .faulted r →
    r.kind = .invalidOpcode

/-- R74, R116. The model's own (log entry 7): exec of an instruction with b an inline literal, which no word encodes,
takes InvalidOperandCode. R282 says that the machine never raises this fault; what exec does with such a term is the
model's reading of the record kept there (log entry 7, DEDUCED). -/
def Obligations.IllegalBOperandFaultsBeforeTheHandler : Prop :=
  ∀ (i : Instr) (k : BitVec 5) (s : State), i.bOperand = some (.inline k) →
    ∃ (t : State) (r : FaultRecord), exec i s = .next t ∧ t.cpu.status = .faulted r ∧
      r.kind = .invalidOperandCode ∧ r.pc = t.cpu.pc ∧ r.code.toNat = 0x20 + k.toNat ∧ r.position = some .b ∧
      t = { s with cpu := { s.cpu with
        pc := s.cpu.pc + BitVec.ofNat 16 i.aOperand.words
        sp := s.cpu.sp + i.aOperand.spMove .a
        status := .faulted r } }

/-- R28, R200, R230. EX changes only in ADD, SUB, MUL, DIV, SHL, SHR, and in an instruction that stores a result with b
the EX Location. -/
def Obligations.OnlyExWritersChangeEx : Prop :=
  ∀ (i : Instr) (s t : State), exec i s = .next t → t.cpu.ex ≠ s.cpu.ex →
    s.cpu.skip = false ∧ (i.writesEx = true ∨ (i.writesB = true ∧ i.bOperand = some .ex))

/-- R28, R235, R236. An instruction that does not name EX as an operand does the same whatever EX holds. -/
def Obligations.NoHandlerReadsExImplicitly : Prop :=
  ∀ (i : Instr) (s : State) (v : Word), i.aOperand ≠ .ex → i.bOperand ≠ some .ex →
    ∃ t u, exec i s = .next t ∧ exec i { s with cpu := { s.cpu with ex := v } } = .next u ∧
      u = { t with cpu := { t.cpu with ex := u.cpu.ex } } ∧
      (s.cpu.skip = false → i.writesEx = true → i.bOperand.all (fun b => b.legalIn .b) = true → u = t)

/-- R27, R119. SP changes only by resolving PUSH or POP, by JSR's push, and by a store of a result to the SP Location. -/
def Obligations.SpChangesOnlyByItsOwnOperations : Prop :=
  ∀ (i : Instr) (s t : State), i.bOperand.all (fun b => b.legalIn .b) = true → exec i s = .next t →
    (¬ (s.cpu.skip = false ∧ i.writesB = true ∧ i.bOperand = some .sp) →
      t.cpu.sp = if s.cpu.skip = false ∧ i.isCall = true then (s.afterOperands i).cpu.sp - 1 else (s.afterOperands i).cpu.sp) ∧
    (i.aOperand ≠ .pushPop → i.bOperand ≠ some .pushPop → (s.afterOperands i).cpu.sp = s.cpu.sp)

/-- R21, R20, R237, R238. No instruction changes a general register but an executed one that stores a result with b that
register. -/
def Obligations.GeneralRegistersChangeOnlyAsDestination : Prop :=
  ∀ (i : Instr) (s t : State) (r : Reg), exec i s = .next t → t.reg r ≠ s.reg r →
    s.cpu.skip = false ∧ i.writesB = true ∧ i.bOperand = some (.reg r)

/-- R60, R121, R201, R256. An instruction changes no cell but the one it stores to, and a skipped one changes none. -/
def Obligations.MemoryChangesOnlyAtTheStoreCell : Prop :=
  ∀ (i : Instr) (s t : State), s.mem.wf = true → exec i s = .next t →
    (∀ x, s.storeCell i ≠ some x → t.memRead x = s.memRead x) ∧
    (s.cpu.skip = true → ∀ x, t.memRead x = s.memRead x)

/-- R8, R83, R253. No step changes the parameter P_HLT_OP that the state carries. -/
def Obligations.NoStepChangesTheParameters : Prop :=
  ∀ s t : State, step s = .next t → t.config = s.config

/-- R310, R37, R288. reset() sets every register, PC, SP and EX to 0, skip false, the status Running and no fault record,
from any state. -/
def Obligations.ResetReinitialisesTheCore : Prop :=
  ∀ s : State, (∀ r, s.doReset.reg r = 0) ∧ s.doReset.cpu.pc = 0 ∧ s.doReset.cpu.sp = 0 ∧ s.doReset.cpu.ex = 0 ∧
    s.doReset.cpu.skip = false ∧ s.doReset.cpu.status = .running ∧ s.doReset.faultRecord = none ∧
    s.doReset.config = s.config

/-- R311, R312, R313. reset() touches no cell, clear() zeroes every cell and touches nothing else, and either order gives
the same state. -/
def Obligations.ResetAndClearAreIndependent : Prop :=
  (∀ s : State, (∀ x, s.doReset.memRead x = s.memRead x) ∧ (∀ x, s.doClear.memRead x = 0) ∧ s.doClear.cpu = s.cpu ∧
      s.doReset.doClear = s.doClear.doReset) ∧
    ∀ y : System, y.doClear.cores = y.cores ∧ ∀ (k : Nat) (s : State), y.doClear.view k = some s → ∀ x, s.memRead x = 0

/-- R38, R315, R310, R312, R270. reset(), clear() and load() leave the reset registers and the program, whatever the
registers and cells held before. State.reset is the model's choice of reset() followed by clear() (log entry 2). -/
def Obligations.BootReachesTheSameStateFromAnyPowerOnState : Prop :=
  ∀ (s : State) (words : List Word), words.length ≤ 65536 →
    s.doReset.doClear = { State.reset with config := s.config } ∧
      ∃ t, s.doReset.doClear.load words = .next t ∧ t.cpu = Cpu.reset ∧ t.mem.wf = true ∧
        ∀ x, t.memRead x = (words[x.toNat]?).getD 0

/-- R270, R314. load writes its n Words to the cells 0 to n - 1 and changes nothing else; more than 65536 Words are
refused. -/
def Obligations.LoadWritesTheProgramFromAddressZero : Prop :=
  ∀ (s : State) (words : List Word), s.mem.wf = true →
    (words.length ≤ 65536 → ∃ t, s.load words = .next t ∧ t.cpu = s.cpu ∧ t.config = s.config ∧
      ∀ x, t.memRead x = (words[x.toNat]?).getD (s.memRead x)) ∧
    (words.length > 65536 → s.load words = .refused .loadTooLong)

/-- R271, R56. The memory port writes one cell, truncating to 16 bits; that it refuses an address above 65535 is the
model's choice (log entry 11). The last clause follows 93_implementation_defined row 21 (log entry 11, DESIGN CHOICE). -/
def Obligations.HostMemoryPortReadsAndWritesCells : Prop :=
  ∀ (s : State) (n : Nat) (v : Int), s.mem.wf = true →
    (n < 65536 → ∃ t w, s.hostWrite n v = .next t ∧ t.hostRead n = .ok w ∧ (w.toNat : Int) = v % 65536 ∧ t.cpu = s.cpu ∧
      ∀ m, m < 65536 → m ≠ n → t.hostRead m = s.hostRead m) ∧
    (65536 ≤ n → s.hostWrite n v = .refused .addressOutOfRange ∧ s.hostRead n = .error .addressOutOfRange)

/-- R66, R320. A Word stored over the next instruction is what the next step fetches. -/
def Obligations.StoredWordIsFetchedByTheNextStep : Prop :=
  ∀ (s : State) (v : Word), s.cpu.skip = false → s.mem.wf = true → s.memRead s.cpu.pc = v →
    s.memRead (s.cpu.pc + 1) = s.cpu.pc + 2 →
      ∃ t, exec (.set .memNext .litNext) s = .next t ∧ t.cpu.pc = s.cpu.pc + 2 ∧ t.fetchWord = v

/-- R265, R91, R143. run() of a one-instruction self-loop, SUB PC, 1 or SET PC, long p at p, returns Stopped within 2
steps. -/
def Obligations.SelfJumpStopsRunInTwoSteps : Prop :=
  ∀ (s : State) (n : Nat), s.cpu.status = .running → s.cpu.skip = false →
    (s.memRead s.cpu.pc = 0x8B83 ∨ (s.memRead s.cpu.pc = 0x7F81 ∧ s.memRead (s.cpu.pc + 1) = s.cpu.pc)) →
      (∃ t, run (n + 2) s = .stopped t ∧ t.cpu.pc = s.cpu.pc ∧ t.cpu.sp = s.cpu.sp) ∧
      ∃ t, run 1 s = .interrupted 1 t

/-- R265, R266. run() returns Stopped only after the first two consecutive steps of the run that left PC and SP unchanged. -/
def Obligations.RunStopsOnlyAfterTwoStableSteps : Prop :=
  ∀ (budget : Nat) (s t : State), run budget s = .stopped t →
    ∃ k u v, k + 2 ≤ budget ∧ Steps k s u ∧ step u = .next v ∧ step v = .next t ∧ v.report = .ok ∧ t.report = .ok ∧
      Stable u v ∧ Stable v t ∧
      ∀ (j : Nat) (x y z : State), j < k → Steps j s x → step x = .next y → step y = .next z →
        ¬ (Stable x y ∧ Stable y z)

/-- R265, R267. run() returns at once, with the state reached, when a step reports Halted or a fault. -/
def Obligations.RunReturnsAtOnceOnHaltOrFault : Prop :=
  ∀ (budget n : Nat) (s t : State), step s = .next t →
    (∀ r, t.cpu.status = .faulted r → runFrom (budget + 1) n s = .fault r t) ∧
    (t.cpu.status = .halted → runFrom (budget + 1) n s = .halted t)

/-- R63, R273, R294. A step of one core changes no other core's registers, latch or status, and every core sees its writes
at once. -/
def Obligations.CoresShareOnlyTheMemory : Prop :=
  ∀ (y : System) (k : Nat) (s t : State), y.view k = some s → step s = .next t →
    ∃ z, y.stepCore k = .next z ∧ z.view k = some t ∧ (∀ j, j ≠ k → z.cores[j]? = y.cores[j]?) ∧
      ∀ (j : Nat) (u : State), z.view j = some u → u.mem = t.mem

/-- R8, R80, R82, R83, R87. Under every assignment of opcode and discriminant values, a word decodes to an instruction
exactly where it encodes it. That the assignments are arguments is log entry 12 (decisions D1 and D2). -/
def Obligations.EveryOpcodeAssignmentEncodesAsItDecodes : Prop :=
  ∀ (om : OpcodeMap) (em : ExtMap) (c : Config) (i : Instr) (w : Word),
    (om.map Prod.fst).Nodup → (om.map Prod.snd).Nodup → 0 ∉ om.map Prod.fst →
    (em.map Prod.fst).Nodup → (em.map Prod.snd).Nodup → (∀ d, c.hltCode = some d → d ∉ em.map Prod.fst) →
      (encodeWith om em c i = some w ↔ decodeWith om em c w = .instr i)

/-- R8, R108, R118, R201. The two values of P_PEEK_BINDING differ only for a peek whose SP moves before its use: a = PEEK
with b = PUSH, and JSR PEEK. That at_get reads a peek at the SP of that moment is the model's reading of its name (log
entry 12). -/
def Obligations.PeekBindingMattersOnlyWhereSpMovesAfterThePeek : Prop :=
  (∀ (b a : Operand) (s s1 : State) (lb la : Location) (v : Word), resolveBoth b a s = .resolved (lb, la) s1 →
      s1.getLocWith .atGet .cell lb = s1.getLocWith .atResolution .cell lb ∧
      s1.setLocWith .atGet lb v = s1.setLocWith .atResolution lb v ∧
      (¬ (a = .peek ∧ b = .pushPop) → s1.getLocWith .atGet .cell la = s1.getLocWith .atResolution .cell la) ∧
      (a = .peek ∧ b = .pushPop → s1.getLocWith .atResolution .cell la = s.memRead s.cpu.sp ∧
        s1.getLocWith .atGet .cell la = s.memRead (s.cpu.sp - 1))) ∧
    (∀ (a : Operand) (s s1 t : State) (la : Location), a ≠ .peek → resolveA a s = .resolved la s1 →
      t.getLocWith .atGet .cell la = t.getLocWith .atResolution .cell la) ∧
    ∀ s : State, s.mem.wf = true →
      ∃ la s1, resolveA .peek s = .resolved la s1 ∧
        (s1.push s1.cpu.pc).getLocWith .atResolution .cell la = s.memRead s.cpu.sp ∧
        (s1.push s1.cpu.pc).getLocWith .atGet .cell la = s.cpu.pc

/-- R273, R310, R311. reset() of one core touches neither another core nor the memory; that an absent core is refused is
the model's choice (log entry 11). The last clause is log entry 11 (DESIGN CHOICE). -/
def Obligations.ResetOfOneCoreTouchesNoOther : Prop :=
  ∀ (y : System) (k : Nat),
    (k < y.cores.length → ∃ z, y.resetCore k = .next z ∧ z.cores[k]? = some Cpu.reset ∧
      (∀ j, j ≠ k → z.cores[j]? = y.cores[j]?) ∧ z.mem = y.mem ∧ z.config = y.config) ∧
    (y.cores.length ≤ k → y.resetCore k = .refused .noSuchCore ∧ y.stepCore k = .refused .noSuchCore)
end

