-- ==== Sys2Proof/Laws/Decode.lean ====
section
/-! SUPPORT. The laws of the decoder and the encoder: fields of a packed word, operand codes, and the two opcode tables. -/

namespace Sys2Proof

/-! The fields of a word (R70) -/

@[simp] theorem opField_pack (op b : BitVec 5) (a : BitVec 6) : opField (pack op b a) = op := by
  ext i hi
  simp only [opField, pack, BitVec.getElem_extractLsb', BitVec.getLsbD_or, BitVec.getLsbD_shiftLeft,
    BitVec.getLsbD_setWidth, Nat.zero_add]
  have h1 : i < 10 := by omega
  have h2 : i < 16 := by omega
  simp [hi, h1, h2, BitVec.getLsbD_eq_getElem]

@[simp] theorem bField_pack (op b : BitVec 5) (a : BitVec 6) : bField (pack op b a) = b := by
  ext i hi
  simp only [bField, pack, BitVec.getElem_extractLsb', BitVec.getLsbD_or, BitVec.getLsbD_shiftLeft,
    BitVec.getLsbD_setWidth]
  have h1 : 5 + i < 10 := by omega
  have h2 : 5 + i < 16 := by omega
  have h3 : 5 + i - 5 = i := by omega
  have h4 : i < 16 := by omega
  simp [h1, h2, h3, h4, BitVec.getLsbD_eq_getElem hi]

@[simp] theorem aField_pack (op b : BitVec 5) (a : BitVec 6) : aField (pack op b a) = a := by
  ext i hi
  simp only [aField, pack, BitVec.getElem_extractLsb', BitVec.getLsbD_or, BitVec.getLsbD_shiftLeft,
    BitVec.getLsbD_setWidth]
  have h2 : 10 + i < 16 := by omega
  have h3 : 10 + i - 10 = i := by omega
  have h4 : i < 16 := by omega
  have h5 : op.getLsbD (10 + i) = false := BitVec.getLsbD_of_ge _ _ (by omega)
  have h6 : b.getLsbD (10 + i - 5) = false := BitVec.getLsbD_of_ge _ _ (by omega)
  simp [h2, h3, h4, h5, h6, BitVec.getLsbD_eq_getElem hi]

/-- A word is its three fields packed. -/
theorem pack_fields (w : Word) : pack (opField w) (bField w) (aField w) = w := by
  ext i hi
  simp only [pack, opField, bField, aField, BitVec.getElem_or, BitVec.getElem_shiftLeft, BitVec.getElem_setWidth,
    BitVec.getLsbD_extractLsb']
  rcases Nat.lt_or_ge i 5 with h | h
  · have : i < 10 := by omega
    simp [h, this, BitVec.getLsbD_eq_getElem hi]
  · rcases Nat.lt_or_ge i 10 with h' | h'
    · have e : 5 + (i - 5) = i := by omega
      have n : ¬ i < 5 := by omega
      have k : i - 5 < 5 := by omega
      simp [h', n, k, e, BitVec.getLsbD_eq_getElem hi]
    · have e : 10 + (i - 10) = i := by omega
      have n : ¬ i < 5 := by omega
      have n' : ¬ i < 10 := by omega
      have k : ¬ i - 5 < 5 := by omega
      have k' : i - 10 < 6 := by omega
      simp [n, n', k, k', e, BitVec.getLsbD_eq_getElem hi]

/-! Operand codes (R75): the 64 codes and the forms are one to one -/

@[simp] theorem ofCode_code (o : Operand) : Operand.ofCode o.code = o := by
  cases o with
  | reg r => cases r <;> rfl
  | ind r => cases r <;> rfl
  | indNext r => cases r <;> rfl
  | inline k => revert k; decide
  | _ => rfl

@[simp] theorem code_ofCode (c : BitVec 6) : (Operand.ofCode c).code = c := by revert c; decide

/-- A 5-bit code names a form that is legal in b position (R74). -/
theorem legalIn_ofCode (b : BitVec 5) : (Operand.ofCode (b.setWidth 6)).legalIn .b = true := by revert b; decide

/-- The code of a form that is legal in b position fits 5 bits (R74). -/
theorem code_setWidth {o : Operand} (h : o.legalIn .b = true) : (o.code.setWidth 5).setWidth 6 = o.code := by
  cases o with
  | reg r => cases r <;> rfl
  | ind r => cases r <;> rfl
  | indNext r => cases r <;> rfl
  | inline k => simp [Operand.legalIn] at h
  | _ => rfl

/-- A looked-up row is a row of the table. -/
theorem mem_of_lookup {β : Type} {l : List (BitVec 5 × β)} {k : BitVec 5} {v : β} (h : l.lookup k = some v) :
    (k, v) ∈ l := by
  induction l with
  | nil => cases h
  | cons p rest ih =>
    obtain ⟨k', v'⟩ := p
    rw [List.lookup_cons] at h
    split at h
    · next e => cases h; rw [eq_of_beq e]; exact List.mem_cons_self
    · exact List.mem_cons_of_mem _ (ih h)

/-! The opcode tables (R80, R82): no value names two operations -/

theorem opcodeMap_distinct : (opcodeMap.map Prod.fst).Nodup := by decide

theorem extMap_distinct : (extMap.map Prod.fst).Nodup := by decide

/-- A free discriminant is one that EXT_MAP leaves unused (R83). -/
theorem free_iff_unused (d : BitVec 5) : isFreeDiscriminant d = true ↔ d ∉ extMap.map Prod.fst := by
  revert d; decide

/-- HLT's discriminant is one that EXT_MAP leaves unused. -/
theorem hltCode_free {c : Config} {d : BitVec 5} (h : c.hltCode = some d) : isFreeDiscriminant d = true := by
  unfold Config.hltCode at h
  cases e : c.hltOp with
  | none => simp [e] at h
  | some op => simp only [e, Option.map_some, Option.some.injEq] at h; exact h ▸ op.free

/-- A free discriminant is not in EXT_MAP, so its lookup is decided by the parameter (R83). -/
theorem extLookup_free {d : BitVec 5} (c : Config) (h : isFreeDiscriminant d = true) :
    extLookup extMap c d = if c.hltCode = some d then some .hlt else none := by
  have e : (extMap.lookup d).isNone = true := by revert d; decide
  simp only [extLookup, Option.isNone_iff_eq_none.mp e]

/-- What an ordinary word decodes to is the row of its opcode (R87). -/
theorem decodeWith_pack_ordinary {om : OpcodeMap} {em : ExtMap} (c : Config) {op : BitVec 5} (b : BitVec 5) (a : BitVec 6)
    (h : op ≠ 0) {o : OrdinaryOp} (e : om.lookup op = some o) :
    decodeWith om em c (pack op b a) = .instr (o.instr (Operand.ofCode (b.setWidth 6)) (Operand.ofCode a)) := by
  simp only [decodeWith, opField_pack, bField_pack, aField_pack, h, if_false, e]

/-- What an extended word decodes to is the row of its discriminant (R87). -/
theorem decodeWith_pack_extended {om : OpcodeMap} {em : ExtMap} (c : Config) (d : BitVec 5) (a : BitVec 6)
    {f : Operand → Instr} (e : extLookup em c d = some f) :
    decodeWith om em c (pack 0 d a) = .instr (f (Operand.ofCode a)) := by
  simp only [decodeWith, opField_pack, bField_pack, aField_pack, if_true, e]

/-- The same under the assignment of R80. -/
theorem decode_pack_ordinary (c : Config) {op : BitVec 5} (b : BitVec 5) (a : BitVec 6) (h : op ≠ 0)
    {o : OrdinaryOp} (e : opcodeMap.lookup op = some o) :
    decode c (pack op b a) = .instr (o.instr (Operand.ofCode (b.setWidth 6)) (Operand.ofCode a)) :=
  decodeWith_pack_ordinary c b a h e

/-- The same under the assignment of R82. -/
theorem decode_pack_extended (c : Config) (d : BitVec 5) (a : BitVec 6)
    {f : Operand → Instr} (e : extLookup extMap c d = some f) :
    decode c (pack 0 d a) = .instr (f (Operand.ofCode a)) := decodeWith_pack_extended c d a e

/-! The operation of an instruction, and the number that an assignment gives it -/

@[simp] theorem ordinaryOp_instr (o : OrdinaryOp) (b a : Operand) : (o.instr b a).ordinaryOp = some o := by cases o <;> rfl
@[simp] theorem bOperand_ordinary (o : OrdinaryOp) (b a : Operand) : (o.instr b a).bOperand = some b := by cases o <;> rfl
@[simp] theorem aOperand_ordinary (o : OrdinaryOp) (b a : Operand) : (o.instr b a).aOperand = a := by cases o <;> rfl
@[simp] theorem ordinaryOp_extended (o : ExtendedOp) (a : Operand) : (o.instr a).ordinaryOp = none := by cases o <;> rfl
@[simp] theorem extendedOp_instr (o : ExtendedOp) (a : Operand) : (o.instr a).extendedOp = some o := by cases o <;> rfl
@[simp] theorem bOperand_extended (o : ExtendedOp) (a : Operand) : (o.instr a).bOperand = none := by cases o <;> rfl
@[simp] theorem aOperand_extended (o : ExtendedOp) (a : Operand) : (o.instr a).aOperand = a := by cases o <;> rfl

theorem eq_ordinary {i : Instr} {o : OrdinaryOp} (h : i.ordinaryOp = some o) : ∃ b a, i = o.instr b a := by
  cases i <;> cases h <;> exact ⟨_, _, rfl⟩

theorem eq_extended {i : Instr} {o : ExtendedOp} (h : i.extendedOp = some o) : ∃ a, i = o.instr a := by
  cases i <;> cases h <;> exact ⟨_, rfl⟩

theorem eq_hlt {i : Instr} (h : i.ordinaryOp = none) (h' : i.extendedOp = none) : ∃ a, i = .hlt a := by
  cases i <;> first | exact ⟨_, rfl⟩ | (cases h; done) | cases h'

/-- Every instruction is an ordinary operation, an extended one, or HLT (R85). -/
theorem instr_cases (i : Instr) :
    (∃ o b a, i = OrdinaryOp.instr o b a) ∨ (∃ o a, i = ExtendedOp.instr o a) ∨ ∃ a, i = .hlt a := by
  cases h : i.ordinaryOp with
  | some o => exact .inl ⟨o, eq_ordinary h⟩
  | none =>
    cases h' : i.extendedOp with
    | some o => exact .inr (.inl ⟨o, eq_extended h'⟩)
    | none => exact .inr (.inr (eq_hlt h h'))

/-- What the encoder does with an ordinary instruction, an extended one, and HLT. -/
theorem encodeWith_ordinary (om : OpcodeMap) (em : ExtMap) (c : Config) (o : OrdinaryOp) (b a : Operand) :
    encodeWith om em c (o.instr b a) = (numberOf om o).bind fun n => encodeOrdinary n b a := by
  simp only [encodeWith, ordinaryOp_instr, bOperand_ordinary, aOperand_ordinary]

theorem encodeWith_extended (om : OpcodeMap) (em : ExtMap) (c : Config) (o : ExtendedOp) (a : Operand) :
    encodeWith om em c (o.instr a) = (numberOf em o).map fun d => encodeExtended d a := by
  simp only [encodeWith, ordinaryOp_extended, extendedOp_instr, aOperand_extended]

theorem encodeWith_hlt (om : OpcodeMap) (em : ExtMap) (c : Config) (a : Operand) :
    encodeWith om em c (.hlt a) = c.hltCode.map fun d => encodeExtended d a := rfl

/-- Where no value and no operation stands twice in an assignment, numbering an operation and looking a value up are inverse. -/
theorem numberOf_eq_some_iff {α : Type} [DecidableEq α] {table : List (BitVec 5 × α)} (hk : (table.map Prod.fst).Nodup)
    (hv : (table.map Prod.snd).Nodup) (n : BitVec 5) (o : α) : numberOf table o = some n ↔ table.lookup n = some o := by
  induction table with
  | nil => simp [numberOf]
  | cons p rest ih =>
    obtain ⟨k, q⟩ := p
    simp only [List.map_cons, List.nodup_cons] at hk hv
    have ih := ih hk.2 hv.2
    rw [numberOf, List.lookup_cons]
    by_cases e : q = o
    · subst e
      by_cases e' : n = k
      · simp [e']
      · have hn : ¬ rest.lookup n = some q := fun h => hv.1 (List.mem_map_of_mem (f := Prod.snd) (mem_of_lookup h))
        simp [beq_eq_false_iff_ne.mpr e', Ne.symm e', hn]
    · by_cases e' : n = k
      · subst e'
        have hn : ¬ numberOf rest o = some n := fun h =>
          hk.1 (List.mem_map_of_mem (f := Prod.fst) (mem_of_lookup (ih.1 h)))
        simp [e, hn]
      · simp [e, beq_eq_false_iff_ne.mpr e', ih]

/-- R80 numbers every ordinary operation, and its row names that operation. -/
theorem opcodeMap_numberOf (o : OrdinaryOp) :
    ∃ n, numberOf opcodeMap o = some n ∧ opcodeMap.lookup n = some o ∧ n ≠ 0 := by
  cases o <;> exact ⟨_, rfl, rfl, by decide⟩

/-- R82 numbers every extended operation but HLT, and its row names that operation. -/
theorem extMap_numberOf (o : ExtendedOp) : ∃ d, numberOf extMap o = some d ∧ extMap.lookup d = some o := by
  cases o <;> exact ⟨_, rfl, rfl⟩

end Sys2Proof
end

