-- ==== Sys2Proof/Laws/State.lean ====
section
/-! SUPPORT. What each update of the state does to each field: one lemma per field per update, so that no proof unfolds a
record update. -/

namespace Sys2Proof.Machine

variable (s : State)

/-! `setReg` -/

@[simp] theorem State.setReg_gpr (r : Reg) (v : Word) : (s.setReg r v).cpu.gpr = s.cpu.gpr.set r v := rfl
@[simp] theorem State.setReg_pc (r : Reg) (v : Word) : (s.setReg r v).cpu.pc = s.cpu.pc := rfl
@[simp] theorem State.setReg_sp (r : Reg) (v : Word) : (s.setReg r v).cpu.sp = s.cpu.sp := rfl
@[simp] theorem State.setReg_ex (r : Reg) (v : Word) : (s.setReg r v).cpu.ex = s.cpu.ex := rfl
@[simp] theorem State.setReg_skip (r : Reg) (v : Word) : (s.setReg r v).cpu.skip = s.cpu.skip := rfl
@[simp] theorem State.setReg_status (r : Reg) (v : Word) : (s.setReg r v).cpu.status = s.cpu.status := rfl
@[simp] theorem State.setReg_mem (r : Reg) (v : Word) : (s.setReg r v).mem = s.mem := rfl
@[simp] theorem State.setReg_config (r : Reg) (v : Word) : (s.setReg r v).config = s.config := rfl
@[simp] theorem State.setReg_memRead (r : Reg) (v : Word) (y : Word) : (s.setReg r v).memRead y = s.memRead y := rfl

/-! `setPc` -/

@[simp] theorem State.setPc_gpr (v : Word) : (s.setPc v).cpu.gpr = s.cpu.gpr := rfl
@[simp] theorem State.setPc_pc (v : Word) : (s.setPc v).cpu.pc = v := rfl
@[simp] theorem State.setPc_sp (v : Word) : (s.setPc v).cpu.sp = s.cpu.sp := rfl
@[simp] theorem State.setPc_ex (v : Word) : (s.setPc v).cpu.ex = s.cpu.ex := rfl
@[simp] theorem State.setPc_skip (v : Word) : (s.setPc v).cpu.skip = s.cpu.skip := rfl
@[simp] theorem State.setPc_status (v : Word) : (s.setPc v).cpu.status = s.cpu.status := rfl
@[simp] theorem State.setPc_mem (v : Word) : (s.setPc v).mem = s.mem := rfl
@[simp] theorem State.setPc_config (v : Word) : (s.setPc v).config = s.config := rfl
@[simp] theorem State.setPc_reg (v : Word) (q : Reg) : (s.setPc v).reg q = s.reg q := rfl
@[simp] theorem State.setPc_memRead (v : Word) (y : Word) : (s.setPc v).memRead y = s.memRead y := rfl

/-! `setSp` -/

@[simp] theorem State.setSp_gpr (v : Word) : (s.setSp v).cpu.gpr = s.cpu.gpr := rfl
@[simp] theorem State.setSp_pc (v : Word) : (s.setSp v).cpu.pc = s.cpu.pc := rfl
@[simp] theorem State.setSp_sp (v : Word) : (s.setSp v).cpu.sp = v := rfl
@[simp] theorem State.setSp_ex (v : Word) : (s.setSp v).cpu.ex = s.cpu.ex := rfl
@[simp] theorem State.setSp_skip (v : Word) : (s.setSp v).cpu.skip = s.cpu.skip := rfl
@[simp] theorem State.setSp_status (v : Word) : (s.setSp v).cpu.status = s.cpu.status := rfl
@[simp] theorem State.setSp_mem (v : Word) : (s.setSp v).mem = s.mem := rfl
@[simp] theorem State.setSp_config (v : Word) : (s.setSp v).config = s.config := rfl
@[simp] theorem State.setSp_reg (v : Word) (q : Reg) : (s.setSp v).reg q = s.reg q := rfl
@[simp] theorem State.setSp_memRead (v : Word) (y : Word) : (s.setSp v).memRead y = s.memRead y := rfl

/-! `setEx` -/

@[simp] theorem State.setEx_gpr (v : Word) : (s.setEx v).cpu.gpr = s.cpu.gpr := rfl
@[simp] theorem State.setEx_pc (v : Word) : (s.setEx v).cpu.pc = s.cpu.pc := rfl
@[simp] theorem State.setEx_sp (v : Word) : (s.setEx v).cpu.sp = s.cpu.sp := rfl
@[simp] theorem State.setEx_ex (v : Word) : (s.setEx v).cpu.ex = v := rfl
@[simp] theorem State.setEx_skip (v : Word) : (s.setEx v).cpu.skip = s.cpu.skip := rfl
@[simp] theorem State.setEx_status (v : Word) : (s.setEx v).cpu.status = s.cpu.status := rfl
@[simp] theorem State.setEx_mem (v : Word) : (s.setEx v).mem = s.mem := rfl
@[simp] theorem State.setEx_config (v : Word) : (s.setEx v).config = s.config := rfl
@[simp] theorem State.setEx_reg (v : Word) (q : Reg) : (s.setEx v).reg q = s.reg q := rfl
@[simp] theorem State.setEx_memRead (v : Word) (y : Word) : (s.setEx v).memRead y = s.memRead y := rfl

/-! `setSkip` -/

@[simp] theorem State.setSkip_gpr (v : Bool) : (s.setSkip v).cpu.gpr = s.cpu.gpr := rfl
@[simp] theorem State.setSkip_pc (v : Bool) : (s.setSkip v).cpu.pc = s.cpu.pc := rfl
@[simp] theorem State.setSkip_sp (v : Bool) : (s.setSkip v).cpu.sp = s.cpu.sp := rfl
@[simp] theorem State.setSkip_ex (v : Bool) : (s.setSkip v).cpu.ex = s.cpu.ex := rfl
@[simp] theorem State.setSkip_skip (v : Bool) : (s.setSkip v).cpu.skip = v := rfl
@[simp] theorem State.setSkip_status (v : Bool) : (s.setSkip v).cpu.status = s.cpu.status := rfl
@[simp] theorem State.setSkip_mem (v : Bool) : (s.setSkip v).mem = s.mem := rfl
@[simp] theorem State.setSkip_config (v : Bool) : (s.setSkip v).config = s.config := rfl
@[simp] theorem State.setSkip_reg (v : Bool) (q : Reg) : (s.setSkip v).reg q = s.reg q := rfl
@[simp] theorem State.setSkip_memRead (v : Bool) (y : Word) : (s.setSkip v).memRead y = s.memRead y := rfl

/-! `setStatus` -/

@[simp] theorem State.setStatus_gpr (v : Status) : (s.setStatus v).cpu.gpr = s.cpu.gpr := rfl
@[simp] theorem State.setStatus_pc (v : Status) : (s.setStatus v).cpu.pc = s.cpu.pc := rfl
@[simp] theorem State.setStatus_sp (v : Status) : (s.setStatus v).cpu.sp = s.cpu.sp := rfl
@[simp] theorem State.setStatus_ex (v : Status) : (s.setStatus v).cpu.ex = s.cpu.ex := rfl
@[simp] theorem State.setStatus_skip (v : Status) : (s.setStatus v).cpu.skip = s.cpu.skip := rfl
@[simp] theorem State.setStatus_status (v : Status) : (s.setStatus v).cpu.status = v := rfl
@[simp] theorem State.setStatus_mem (v : Status) : (s.setStatus v).mem = s.mem := rfl
@[simp] theorem State.setStatus_config (v : Status) : (s.setStatus v).config = s.config := rfl
@[simp] theorem State.setStatus_reg (v : Status) (q : Reg) : (s.setStatus v).reg q = s.reg q := rfl
@[simp] theorem State.setStatus_memRead (v : Status) (y : Word) : (s.setStatus v).memRead y = s.memRead y := rfl

/-! `memWrite` -/

@[simp] theorem State.memWrite_gpr (x v : Word) : (s.memWrite x v).cpu.gpr = s.cpu.gpr := rfl
@[simp] theorem State.memWrite_pc (x v : Word) : (s.memWrite x v).cpu.pc = s.cpu.pc := rfl
@[simp] theorem State.memWrite_sp (x v : Word) : (s.memWrite x v).cpu.sp = s.cpu.sp := rfl
@[simp] theorem State.memWrite_ex (x v : Word) : (s.memWrite x v).cpu.ex = s.cpu.ex := rfl
@[simp] theorem State.memWrite_skip (x v : Word) : (s.memWrite x v).cpu.skip = s.cpu.skip := rfl
@[simp] theorem State.memWrite_status (x v : Word) : (s.memWrite x v).cpu.status = s.cpu.status := rfl
@[simp] theorem State.memWrite_mem (x v : Word) : (s.memWrite x v).mem = s.mem.write x v := rfl
@[simp] theorem State.memWrite_config (x v : Word) : (s.memWrite x v).config = s.config := rfl
@[simp] theorem State.memWrite_reg (x v : Word) (q : Reg) : (s.memWrite x v).reg q = s.reg q := rfl

/-! Registers -/

@[simp] theorem Gpr.get_set (g : Gpr) (r q : Reg) (v : Word) : (g.set r v).get q = if r = q then v else g.get q := by
  cases r <;> cases q <;> rfl

@[simp] theorem State.setReg_reg (r q : Reg) (v : Word) : (s.setReg r v).reg q = if r = q then v else s.reg q :=
  Gpr.get_set s.cpu.gpr r q v

/-- Two register files that read alike are equal. -/
theorem Gpr.ext_get {g h : Gpr} (e : ∀ r, g.get r = h.get r) : g = h := by
  have ha := e .a; have hb := e .b; have hc := e .c; have hx := e .x
  have hy := e .y; have hz := e .z; have hi := e .i; have hj := e .j
  cases g; cases h; simp_all [Gpr.get]

/-! The instruction stream, the stack, faults and the reset -/

@[simp] theorem State.nextWord_fst : s.nextWord.1 = s.memRead s.cpu.pc := rfl
@[simp] theorem State.nextWord_snd : s.nextWord.2 = s.setPc (s.cpu.pc + 1) := rfl
@[simp] theorem State.raiseFault_eq (k : FaultKind) (c : BitVec 6) (p : Option Position) :
    s.raiseFault k c p = s.setStatus (.faulted { kind := k, pc := s.cpu.pc, code := c, position := p }) := rfl
@[simp] theorem State.push_eq (v : Word) : s.push v = (s.setSp (s.cpu.sp - 1)).memWrite (s.cpu.sp - 1) v := rfl
@[simp] theorem State.doReset_cpu : s.doReset.cpu = Cpu.reset := rfl
@[simp] theorem State.doReset_mem : s.doReset.mem = s.mem := rfl
@[simp] theorem State.doReset_config : s.doReset.config = s.config := rfl

/-! Updates that meet -/

@[simp] theorem State.setPc_setPc (v w : Word) : (s.setPc v).setPc w = s.setPc w := rfl
@[simp] theorem State.setSp_setSp (v w : Word) : (s.setSp v).setSp w = s.setSp w := rfl
@[simp] theorem State.setPc_self : s.setPc s.cpu.pc = s := rfl
@[simp] theorem State.setSp_self : s.setSp s.cpu.sp = s := rfl
theorem State.setSp_setPc (v w : Word) : (s.setSp v).setPc w = (s.setPc w).setSp v := rfl

end Sys2Proof.Machine
end

