-- ==== Sys2Proof/Laws/Memory.lean ====
section
/-! SUPPORT. The laws of the Word Store: what a write does to every read, and that the canonical form is kept. -/

namespace Sys2Proof.Machine

/-- An address below the first possible one of a canonical list reads 0. -/
theorem readCells_below {lo n : Nat} {l : List Cell} (h : cellsWf lo l = true) (hn : n < lo) : readCells l n = 0 := by
  cases l with
  | nil => rfl
  | cons c rest =>
    obtain ⟨k, v⟩ := c
    simp only [cellsWf, Bool.and_eq_true, decide_eq_true_eq] at h
    rw [readCells, if_pos (by omega)]

/-- A canonical list stays canonical from any earlier address on. -/
theorem cellsWf_weaken {lo lo' : Nat} {l : List Cell} (h : cellsWf lo l = true) (hl : lo' ≤ lo) : cellsWf lo' l = true := by
  cases l with
  | nil => rfl
  | cons c rest =>
    obtain ⟨k, v⟩ := c
    simp only [cellsWf, Bool.and_eq_true, decide_eq_true_eq] at h ⊢
    exact ⟨⟨⟨by omega, h.1.1.2⟩, h.1.2⟩, h.2⟩

/-- A write keeps the canonical form. -/
theorem writeCells_wf {lo n : Nat} {l : List Cell} (v : Word) (h : cellsWf lo l = true) (hl : lo ≤ n) (hn : n < 65536) :
    cellsWf lo (writeCells l n v) = true := by
  induction l generalizing lo with
  | nil =>
    rw [writeCells]
    split
    · rfl
    · next hv => simpa [cellsWf, hl, hn] using hv
  | cons c rest ih =>
    obtain ⟨k, u⟩ := c
    have h' := h
    simp only [cellsWf, Bool.and_eq_true, decide_eq_true_eq] at h'
    obtain ⟨⟨⟨h1, h2⟩, h3⟩, h4⟩ := h'
    rw [writeCells]
    split
    · split
      · exact h
      · next hv =>
        simp only [cellsWf, Bool.and_eq_true, decide_eq_true_eq]
        exact ⟨⟨⟨hl, hn⟩, hv⟩, ⟨⟨by omega, h2⟩, h3⟩, h4⟩
    · split
      · next heq =>
        subst heq
        split
        · exact cellsWf_weaken h4 (by omega)
        · next hv =>
          simp only [cellsWf, Bool.and_eq_true, decide_eq_true_eq]
          exact ⟨⟨⟨hl, hn⟩, hv⟩, h4⟩
      · simp only [cellsWf, Bool.and_eq_true, decide_eq_true_eq]
        exact ⟨⟨⟨h1, h2⟩, h3⟩, ih h4 (by omega)⟩

/-- What every read of a canonical list gives after a write. -/
theorem readCells_writeCells {lo : Nat} {l : List Cell} (n : Nat) (v : Word) (m : Nat) (h : cellsWf lo l = true) :
    readCells (writeCells l n v) m = if m = n then v else readCells l m := by
  induction l generalizing lo with
  | nil =>
    by_cases hv : v = 0
    · simp [writeCells, readCells, hv]
    · simp only [writeCells, readCells, hv, if_false]
      split <;> split <;> first | rfl | omega
  | cons c rest ih =>
    obtain ⟨k, u⟩ := c
    simp only [cellsWf, Bool.and_eq_true, decide_eq_true_eq] at h
    have ih' := ih h.2
    rw [writeCells]
    split
    · next hlt =>
      have below : ∀ q, q < k → readCells ((k, u) :: rest) q = 0 := fun q hq => by rw [readCells, if_pos hq]
      split
      · next hv =>
        split
        · next hm => rw [hv, hm, below n hlt]
        · rfl
      · rw [readCells]
        split
        · next hm => rw [if_neg (by omega), below m (by omega)]
        · rfl
    · split
      · next heq =>
        subst heq
        split
        · next hv =>
          rw [hv, readCells]
          split
          · next hm => rw [hm]; exact readCells_below h.2 (by omega)
          · next hm =>
            split
            · next hlt => exact readCells_below h.2 (by omega)
            · rfl
        · rw [readCells, readCells]
          split
          · next hlt => rw [if_neg (by omega)]
          · next hlt => split <;> simp_all
      · rw [readCells, readCells, ih']
        split
        · rw [if_neg (by omega)]
        · split
          · rw [if_neg (by omega)]
          · rfl

/-- A canonical list is determined by what it reads. -/
theorem cells_ext {lo : Nat} {l k : List Cell} (hl : cellsWf lo l = true) (hk : cellsWf lo k = true)
    (h : ∀ n, n < 65536 → readCells l n = readCells k n) : l = k := by
  induction l generalizing lo k with
  | nil =>
    cases k with
    | nil => rfl
    | cons c rest =>
      obtain ⟨n, v⟩ := c
      simp only [cellsWf, Bool.and_eq_true, decide_eq_true_eq] at hk
      have := h n (by omega)
      simp only [readCells, lt_irrefl, if_false, if_true] at this
      exact absurd this.symm hk.1.2
  | cons c rest ih =>
    obtain ⟨n, v⟩ := c
    have hl' := hl
    simp only [cellsWf, Bool.and_eq_true, decide_eq_true_eq] at hl'
    cases k with
    | nil =>
      have := h n (by omega)
      simp only [readCells, lt_irrefl, if_false, if_true] at this
      exact absurd this hl'.1.2
    | cons d tail =>
      obtain ⟨m, u⟩ := d
      have hk' := hk
      simp only [cellsWf, Bool.and_eq_true, decide_eq_true_eq] at hk'
      have hn := h n (by omega)
      have hm := h m (by omega)
      simp only [readCells, lt_irrefl, if_false, if_true] at hn hm
      have hnm : n = m := by
        by_contra hne
        rcases Nat.lt_or_gt_of_ne hne with hlt | hgt
        · rw [if_pos hlt] at hn; exact hl'.1.2 hn
        · rw [if_pos hgt] at hm; exact hk'.1.2 hm.symm
      subst hnm
      simp only [lt_irrefl, if_false, if_true] at hn
      subst hn
      congr 1
      refine ih hl'.2 hk'.2 fun j hj => ?_
      by_cases hjn : j < n + 1
      · rw [readCells_below hl'.2 hjn, readCells_below hk'.2 hjn]
      · have := h j hj
        simpa only [readCells, show ¬ j < n by omega, show ¬ j = n by omega, if_false] using this

/-- A write to the Word Store keeps its canonical form. -/
theorem Memory.write_wf {m : Memory} (x v : Word) (h : m.wf = true) : (m.write x v).wf = true :=
  writeCells_wf v h (Nat.zero_le _) x.isLt

/-- What every read gives after a write to a Word Store in canonical form (R57). -/
theorem Memory.read_write {m : Memory} (h : m.wf = true) (x v y : Word) :
    (m.write x v).read y = if y = x then v else m.read y := by
  unfold Memory.read Memory.write
  rw [readCells_writeCells _ _ _ h]
  by_cases e : y = x
  · rw [if_pos e, if_pos (by rw [e])]
  · rw [if_neg e, if_neg fun e' => e (BitVec.eq_of_toNat_eq e')]

/-- Two Word Stores in canonical form that read alike are equal data. -/
theorem Memory.ext_read {m k : Memory} (hm : m.wf = true) (hk : k.wf = true) (h : ∀ x, m.read x = k.read x) : m = k := by
  obtain ⟨l⟩ := m
  obtain ⟨l'⟩ := k
  congr 1
  refine cells_ext hm hk fun n hn => ?_
  have := h (BitVec.ofNat 16 n)
  simpa [Memory.read, BitVec.toNat_ofNat, Nat.mod_eq_of_lt hn] using this

@[simp] theorem Memory.zero_read (x : Word) : Memory.zero.read x = 0 := rfl

/-- The memory after reset is in canonical form. -/
theorem Memory.zero_wf : Memory.zero.wf = true := rfl

/-- What every read of the machine's memory gives after a write. -/
theorem State.memRead_memWrite {s : State} (h : s.mem.wf = true) (x v y : Word) :
    (s.memWrite x v).memRead y = if y = x then v else s.memRead y := Memory.read_write h x v y

end Sys2Proof.Machine
end

