-- ==== Sys2Proof/Laws/Operands.lean ====
section
/-! SUPPORT. What the shared operations can do: resolving operands, reading and writing a Location, and the shared part of a
step. -/

namespace Sys2Proof.Machine

variable (s : State)

/-! Moving PC and SP -/

@[simp] theorem State.advance_pc (n : Nat) (d : Word) : (s.advance n d).cpu.pc = s.cpu.pc + BitVec.ofNat 16 n := rfl
@[simp] theorem State.advance_sp (n : Nat) (d : Word) : (s.advance n d).cpu.sp = s.cpu.sp + d := rfl
@[simp] theorem State.advance_gpr (n : Nat) (d : Word) : (s.advance n d).cpu.gpr = s.cpu.gpr := rfl
@[simp] theorem State.advance_ex (n : Nat) (d : Word) : (s.advance n d).cpu.ex = s.cpu.ex := rfl
@[simp] theorem State.advance_skip (n : Nat) (d : Word) : (s.advance n d).cpu.skip = s.cpu.skip := rfl
@[simp] theorem State.advance_status (n : Nat) (d : Word) : (s.advance n d).cpu.status = s.cpu.status := rfl
@[simp] theorem State.advance_mem (n : Nat) (d : Word) : (s.advance n d).mem = s.mem := rfl
@[simp] theorem State.advance_config (n : Nat) (d : Word) : (s.advance n d).config = s.config := rfl
@[simp] theorem State.advance_reg (n : Nat) (d : Word) (r : Reg) : (s.advance n d).reg r = s.reg r := rfl
@[simp] theorem State.advance_memRead (n : Nat) (d x : Word) : (s.advance n d).memRead x = s.memRead x := rfl

theorem State.advance_advance (n m : Nat) (d e : Word) :
    (s.advance n d).advance m e = s.advance (n + m) (d + e) := by
  simp only [State.advance, BitVec.ofNat_add, BitVec.add_assoc]

/-! Resolution -/

/-- A legal operand resolves to a Location, moves PC past its words and SP by its push or pop, and changes nothing else. -/
theorem resolve_legal {o : Operand} {p : Position} (h : o.legalIn p = true) :
    ∃ l, resolve o p s = (some l, s.advance o.words (o.spMove p)) := by
  have z : s.advance 0 0 = s := by simp [State.advance]
  have one : s.nextWord.2 = s.advance 1 0 := by simp [State.advance, State.setPc]
  cases o <;> cases p <;>
    first
    | exact ⟨_, congrArg (Prod.mk _) z.symm⟩
    | exact ⟨_, congrArg (Prod.mk _) one⟩
    | (refine ⟨_, congrArg (Prod.mk _) ?_⟩
       simp [State.advance, State.setSp, Operand.words, Operand.spMove, BitVec.sub_eq_add_neg])
    | simp [Operand.legalIn] at h

/-- The one operand that is illegal in its position resolves to no Location and changes nothing. -/
theorem resolve_illegal {o : Operand} {p : Position} (h : o.legalIn p = false) : resolve o p s = (none, s) := by
  cases o <;> cases p <;> first | rfl | simp [Operand.legalIn] at h

/-- Every operand is legal in a position (R116). -/
@[simp] theorem legalIn_a (o : Operand) : o.legalIn .a = true := by cases o <;> rfl

/-- The single operand of an extended instruction always resolves. -/
theorem resolveA_eq (a : Operand) :
    ∃ la, resolveA a s = .resolved la (s.advance a.words (a.spMove .a)) := by
  obtain ⟨la, h⟩ := resolve_legal s (legalIn_a a)
  exact ⟨la, by simp only [resolveA, h]⟩

/-- A legal pair of operands resolves, a first and then b from the state that a's resolution left (R124). -/
theorem resolveBoth_legal {b : Operand} (a : Operand) (h : b.legalIn .b = true) :
    ∃ lb la, resolveBoth b a s =
      .resolved (lb, la) (s.advance (a.words + b.words) (a.spMove .a + b.spMove .b)) := by
  obtain ⟨la, ha⟩ := resolve_legal s (legalIn_a a)
  obtain ⟨lb, hb⟩ := resolve_legal (s.advance a.words (a.spMove .a)) h
  exact ⟨lb, la, by simp only [resolveBoth, ha, hb, State.advance_advance]⟩

/-- An illegal b operand ends the resolution, a having been resolved (R285). -/
theorem resolveBoth_illegal {b : Operand} (a : Operand) (h : b.legalIn .b = false) :
    resolveBoth b a s = .illegal b .b (s.advance a.words (a.spMove .a)) := by
  obtain ⟨la, ha⟩ := resolve_legal s (legalIn_a a)
  simp only [resolveBoth, ha, resolve_illegal _ h]

/-! The shared part of a step -/

/-- What an instruction with two operands can do: both are resolved, then it is skipped or its handler runs. -/
theorem ordinary_legal {b : Operand} (a : Operand) (h : b.legalIn .b = true) :
    ∃ lb la s1, s1 = s.advance (a.words + b.words) (a.spMove .a + b.spMove .b) ∧
      resolveBoth b a s = .resolved (lb, la) s1 ∧
      ∀ handler, ordinary handler b a s = bif s.cpu.skip then s1.setSkip false else handler lb la s1 := by
  obtain ⟨lb, la, e⟩ := resolveBoth_legal s a h
  exact ⟨lb, la, _, rfl, e, fun handler => by simp only [ordinary, e]; rfl⟩

/-- An instruction with an illegal b operand faults after resolving a. -/
theorem ordinary_illegal {b : Operand} (a : Operand) (h : b.legalIn .b = false)
    (handler : Location → Location → State → State) :
    ordinary handler b a s = illegalOperand b .b (s.advance a.words (a.spMove .a)) := by
  simp only [ordinary, resolveBoth_illegal s a h]

/-- What an extended instruction can do: its operand is resolved, then it is skipped or its handler runs. -/
theorem extended_eq (a : Operand) :
    ∃ la s1, s1 = s.advance a.words (a.spMove .a) ∧ resolveA a s = .resolved la s1 ∧
      ∀ handler, extended handler a s = bif s.cpu.skip then s1.setSkip false else handler la s1 := by
  obtain ⟨la, e⟩ := resolveA_eq s a
  exact ⟨la, _, rfl, e, fun handler => by simp only [extended, e]; rfl⟩

/-- A word whose opcode names no operation faults after its operands are resolved. -/
theorem invalidOrdinary_legal {b : Operand} (op : BitVec 5) (a : Operand) (h : b.legalIn .b = true) :
    invalidOrdinary op b a s =
      (s.advance (a.words + b.words) (a.spMove .a + b.spMove .b)).raiseFault .invalidOpcode
        (op.setWidth 6) none := by
  obtain ⟨lb, la, e⟩ := resolveBoth_legal s a h
  simp only [invalidOrdinary, e]

/-- An extended word whose discriminant names no operation faults after its operand is resolved. -/
theorem invalidExtended_eq (disc : BitVec 5) (a : Operand) :
    invalidExtended disc a s =
      (s.advance a.words (a.spMove .a)).raiseFault .invalidOpcode (disc.setWidth 6) none := by
  obtain ⟨la, e⟩ := resolveA_eq s a
  simp only [invalidExtended, e]

/-! Reading and writing a Location, one lemma per kind (R120, R121) -/

variable (l : Location) (v : Word)

@[simp] theorem State.getLoc_register (r : Reg) : s.getLoc (.register r) = s.reg r := rfl
@[simp] theorem State.getLoc_memoryCell (t : Word) : s.getLoc (.memoryCell t) = s.memRead t := rfl
@[simp] theorem State.getLoc_stackPush (t : Word) : s.getLoc (.stackPush t) = s.memRead t := rfl
@[simp] theorem State.getLoc_stackPop (t : Word) : s.getLoc (.stackPop t) = s.memRead t := rfl
@[simp] theorem State.getLoc_stackPeek (t : Word) : s.getLoc (.stackPeek t) = s.memRead t := rfl
@[simp] theorem State.getLoc_stackPointer : s.getLoc .stackPointer = s.cpu.sp := rfl
@[simp] theorem State.getLoc_programCounter : s.getLoc .programCounter = s.cpu.pc := rfl
@[simp] theorem State.getLoc_overflow : s.getLoc .overflow = s.cpu.ex := rfl
@[simp] theorem State.getLoc_literal : s.getLoc (.literal v) = v := rfl
theorem State.setLoc_register (r : Reg) : s.setLoc (.register r) v = s.setReg r v := rfl
theorem State.setLoc_memoryCell (t : Word) : s.setLoc (.memoryCell t) v = s.memWrite t v := rfl
theorem State.setLoc_stackPush (t : Word) : s.setLoc (.stackPush t) v = s.memWrite t v := rfl
theorem State.setLoc_stackPop (t : Word) : s.setLoc (.stackPop t) v = s.memWrite t v := rfl
theorem State.setLoc_stackPeek (t : Word) : s.setLoc (.stackPeek t) v = s.memWrite t v := rfl
theorem State.setLoc_stackPointer : s.setLoc .stackPointer v = s.setSp v := rfl
theorem State.setLoc_programCounter : s.setLoc .programCounter v = s.setPc v := rfl
theorem State.setLoc_overflow : s.setLoc .overflow v = s.setEx v := rfl
theorem State.setLoc_literal (u : Word) : s.setLoc (.literal u) v = s := rfl

/-! Writing a Location: what each part of the state is after it -/

@[simp] theorem State.setLoc_reg (r : Reg) : (s.setLoc l v).reg r = if l = .register r then v else s.reg r := by
  cases l <;> simp [State.setLoc, State.setLocWith, State.peekAddress, Config.peekBinding]

@[simp] theorem State.setLoc_pc : (s.setLoc l v).cpu.pc = if l = .programCounter then v else s.cpu.pc := by
  cases l <;> simp [State.setLoc, State.setLocWith, State.peekAddress, Config.peekBinding]

@[simp] theorem State.setLoc_sp : (s.setLoc l v).cpu.sp = if l = .stackPointer then v else s.cpu.sp := by
  cases l <;> simp [State.setLoc, State.setLocWith, State.peekAddress, Config.peekBinding]

@[simp] theorem State.setLoc_ex : (s.setLoc l v).cpu.ex = if l = .overflow then v else s.cpu.ex := by
  cases l <;> simp [State.setLoc, State.setLocWith, State.peekAddress, Config.peekBinding]

@[simp] theorem State.setLoc_skip : (s.setLoc l v).cpu.skip = s.cpu.skip := by cases l <;> rfl

@[simp] theorem State.setLoc_status : (s.setLoc l v).cpu.status = s.cpu.status := by cases l <;> rfl

@[simp] theorem State.setLoc_config : (s.setLoc l v).config = s.config := by cases l <;> rfl

/-- What every read of memory gives after a Location is written. -/
theorem State.setLoc_memRead {s : State} (h : s.mem.wf = true) (x : Word) :
    (s.setLoc l v).memRead x = if l.cell = some x then v else s.memRead x := by
  cases l <;>
    simp [State.setLoc, State.setLocWith, State.peekAddress, Config.peekBinding, Location.cell, State.memRead_memWrite h,
      eq_comm]

/-- Writing a Location keeps the memory's canonical form. -/
theorem State.setLoc_wf {s : State} (h : s.mem.wf = true) : (s.setLoc l v).mem.wf = true := by
  cases l <;> first | exact h | exact Memory.write_wf _ _ h

end Sys2Proof.Machine
end

