-- ==== Sys2Proof/Laws/Exec.lean ====
section
/-! SUPPORT. What `exec` and a step can do, said once: every meaning is the shared part of a step with a handler of its own,
and a step of a Running core is one of three cases. -/

namespace Sys2Proof.Machine

/-- Every instruction is either an ordinary one with a handler over (b, a) or an extended one with a handler over a, and
`exec` runs that handler in the shared part of a step; it always answers a next state. -/
theorem exec_cases (i : Instr) :
    (∃ (b : Operand) (h : Location → Location → State → State), i.bOperand = some b ∧
      ∀ s, exec i s = .next (ordinary h b i.aOperand s)) ∨
    (∃ h : Location → State → State, i.bOperand = none ∧ ∀ s, exec i s = .next (extended h i.aOperand s)) := by
  cases i <;> first | exact .inl ⟨_, _, rfl, fun _ => rfl⟩ | exact .inr ⟨_, rfl, fun _ => rfl⟩

/-- `exec` always answers a next state. -/
theorem exec_next (i : Instr) (s : State) : ∃ t, exec i s = .next t := by
  rcases exec_cases i with ⟨_, _, _, h⟩ | ⟨_, _, h⟩ <;> exact ⟨_, h s⟩

/-- A decoded instruction's b operand is legal in b position (R74). -/
theorem decode_legal {c : Config} {w : Word} {i : Instr} (h : decode c w = .instr i) :
    i.bOperand.all (fun b => b.legalIn .b) = true := by
  have hb := legalIn_ofCode (bField w)
  unfold decode decodeWith at h
  split at h
  · split at h
    · next f hf =>
      cases h
      unfold extLookup at hf
      split at hf
      · cases hf; rw [bOperand_extended]; rfl
      · split at hf
        · cases hf; rfl
        · cases hf
    · cases h
  · split at h
    · cases h; rw [bOperand_ordinary]; exact hb
    · cases h

/-- A step of a Running core runs what the word at PC decodes to. -/
theorem step_running {s : State} (h : s.cpu.status = .running) : step s = runDecoded s.decoded s := by
  unfold step stepCore; rw [h]; rfl

/-- What one step can do: nothing, where the core is not Running; else run the decoded instruction from the state after the
fetch, or fault on a word that names no operation, its operands having been resolved. -/
theorem step_cases (s : State) :
    (s.cpu.status ≠ .running ∧ step s = .next s) ∨
    (s.cpu.status = .running ∧ ∃ i, s.decoded = .instr i ∧ step s = exec i s.afterFetch) ∨
    (s.cpu.status = .running ∧ ∃ op b a, s.decoded = .invalidOrdinary op b a ∧
      step s = .next (invalidOrdinary op b a s.afterFetch)) ∨
    (s.cpu.status = .running ∧ ∃ d a, s.decoded = .invalidExtended d a ∧
      step s = .next (invalidExtended d a s.afterFetch)) := by
  cases hs : s.cpu.status with
  | halted => exact .inl ⟨by simp, by unfold step stepCore; rw [hs]⟩
  | faulted r => exact .inl ⟨by simp, by unfold step stepCore; rw [hs]⟩
  | running =>
    right
    rw [step_running hs]
    cases hd : s.decoded with
    | instr i => exact .inl ⟨rfl, i, rfl, rfl⟩
    | invalidOrdinary op b a => exact .inr (.inl ⟨rfl, op, b, a, rfl, rfl⟩)
    | invalidExtended d a => exact .inr (.inr ⟨rfl, d, a, rfl, rfl⟩)

/-- A step always answers a next state. -/
theorem step_next (s : State) : ∃ t, step s = .next t := by
  rcases step_cases s with ⟨_, h⟩ | ⟨_, i, _, h⟩ | ⟨_, _, _, _, _, h⟩ | ⟨_, _, _, _, h⟩
  · exact ⟨_, h⟩
  · exact h ▸ exec_next i _
  · exact ⟨_, h⟩
  · exact ⟨_, h⟩

@[simp] theorem State.afterFetch_eq (s : State) : s.afterFetch = s.setPc (s.cpu.pc + 1) := rfl
@[simp] theorem State.fetchWord_eq (s : State) : s.fetchWord = s.memRead s.cpu.pc := rfl

end Sys2Proof.Machine
end

