-- ==== Sys2Proof/Laws/Flags.lean ====
section
/-! SUPPORT. What each result and each EX value is as a natural number: one lemma per function (R140-R155). -/

namespace Sys2Proof.Machine

/-- Truncating a natural number (R10). -/
@[simp] theorem wrap16_natCast_toNat (n : Nat) : (wrap16 (n : Int)).toNat = n % 65536 := by
  simp [wrap16]

variable (b a : Word)

theorem addValue_toNat : (addValue b a).toNat = (b.toNat + a.toNat) % 65536 := by
  have := wrap16_natCast_toNat (b.toNat + a.toNat)
  simpa [addValue] using this

theorem addEx_toNat : (addEx b a).toNat = if b.toNat + a.toNat > 65535 then 1 else 0 := by
  unfold addEx; split <;> rfl

theorem subValue_toNat : (subValue b a).toNat = (b.toNat + 65536 - a.toNat) % 65536 := by
  have hb := b.isLt
  have ha := a.isLt
  simp only [subValue, wrap16, BitVec.toNat_ofInt]
  omega

theorem subEx_toNat : (subEx b a).toNat = if b.toNat < a.toNat then 65535 else 0 := by
  unfold subEx; split <;> split <;> first | rfl | omega

theorem mulValue_toNat : (mulValue b a).toNat = (b.toNat * a.toNat) % 65536 := wrap16_natCast_toNat _

theorem mulEx_toNat : (mulEx b a).toNat = (b.toNat * a.toNat) / 65536 % 65536 := by
  rw [mulEx, wrap16_natCast_toNat, Nat.shiftRight_eq_div_pow]

theorem divValue_toNat : (divValue b a).toNat = if a.toNat = 0 then 0 else b.toNat / a.toNat := by
  unfold divValue
  by_cases h : a = 0
  · simp [h]
  · have h' : a.toNat ≠ 0 := fun e => h (BitVec.eq_of_toNat_eq e)
    rw [if_neg h, if_neg h', wrap16_natCast_toNat]
    exact Nat.mod_eq_of_lt (Nat.lt_of_le_of_lt (Nat.div_le_self _ _) b.isLt)

theorem divEx_toNat : (divEx b a).toNat = if a.toNat = 0 then 0 else b.toNat * 65536 / a.toNat % 65536 := by
  unfold divEx
  by_cases h : a = 0
  · simp [h]
  · have h' : a.toNat ≠ 0 := fun e => h (BitVec.eq_of_toNat_eq e)
    rw [if_neg h, if_neg h', wrap16_natCast_toNat, Nat.shiftLeft_eq]

theorem modValue_toNat : (modValue b a).toNat = if a.toNat = 0 then 0 else b.toNat % a.toNat := by
  unfold modValue
  by_cases h : a = 0
  · simp [h]
  · have h' : a.toNat ≠ 0 := fun e => h (BitVec.eq_of_toNat_eq e)
    rw [if_neg h, if_neg h', wrap16_natCast_toNat]
    exact Nat.mod_eq_of_lt (Nat.lt_of_le_of_lt (Nat.mod_le _ _) b.isLt)

theorem andValue_toNat : (andValue b a).toNat = b.toNat &&& a.toNat := BitVec.toNat_and ..

theorem borValue_toNat : (borValue b a).toNat = b.toNat ||| a.toNat := BitVec.toNat_or ..

theorem xorValue_toNat : (xorValue b a).toNat = b.toNat ^^^ a.toNat := BitVec.toNat_xor ..

theorem shlValue_toNat : (shlValue b a).toNat = b.toNat * 2 ^ a.toNat % 65536 := by
  rw [shlValue, wrap16_natCast_toNat, Nat.shiftLeft_eq]

theorem shlEx_toNat : (shlEx b a).toNat = b.toNat * 2 ^ a.toNat / 65536 % 65536 := by
  rw [shlEx, wrap16_natCast_toNat, Nat.shiftLeft_eq, Nat.shiftRight_eq_div_pow]

theorem shrValue_toNat : (shrValue b a).toNat = b.toNat / 2 ^ a.toNat := by
  rw [shrValue, wrap16_natCast_toNat, Nat.shiftRight_eq_div_pow]
  exact Nat.mod_eq_of_lt (Nat.lt_of_le_of_lt (Nat.div_le_self _ _) b.isLt)

theorem shrEx_toNat : (shrEx b a).toNat = b.toNat * 65536 / 2 ^ a.toNat % 65536 := by
  rw [shrEx, wrap16_natCast_toNat, Nat.shiftLeft_eq, Nat.shiftRight_eq_div_pow]

theorem ifbHolds_iff : ifbHolds b a = true ↔ b.toNat &&& a.toNat ≠ 0 := by
  simp [ifbHolds, ← BitVec.toNat_inj]

theorem ifcHolds_iff : ifcHolds b a = true ↔ b.toNat &&& a.toNat = 0 := by
  simp [ifcHolds, ← BitVec.toNat_inj]

theorem ifeHolds_iff : ifeHolds b a = true ↔ b.toNat = a.toNat := by
  simp [ifeHolds, BitVec.toNat_inj]

theorem ifnHolds_iff : ifnHolds b a = true ↔ b.toNat ≠ a.toNat := by
  simp [ifnHolds, BitVec.toNat_inj]

theorem ifgHolds_iff : ifgHolds b a = true ↔ b.toNat > a.toNat := by simp [ifgHolds]

theorem iflHolds_iff : iflHolds b a = true ↔ b.toNat < a.toNat := by simp [iflHolds]

end Sys2Proof.Machine
end

