-- ==== Sys2Proof/Laws/PerInstr.lean ====
section
/-! SUPPORT. Statements about every instruction as syntax, one lemma per constructor. Encodable: the encoder gives an
instruction a word exactly where it is well-formed (R74, R83). -/

namespace Sys2Proof.Laws.Encodable

/-- The encoder gives the instruction a word exactly where it is well-formed. -/
def Statement (i : Instr) : Prop := ∀ c : Config, (encode c i).isSome = i.wellFormed c

/-- The shape shared by the ordinary instructions: only the b operand's position decides. -/
theorem ordinary_isSome (op : BitVec 5) (b a : Operand) : (encodeOrdinary op b a).isSome = (b.legalIn .b && true) := by
  cases h : b.legalIn .b <;> simp [encodeOrdinary, h]

theorem set (b a : Operand) : Statement (.set b a) := fun _ => ordinary_isSome _ b a
theorem add (b a : Operand) : Statement (.add b a) := fun _ => ordinary_isSome _ b a
theorem sub (b a : Operand) : Statement (.sub b a) := fun _ => ordinary_isSome _ b a
theorem mul (b a : Operand) : Statement (.mul b a) := fun _ => ordinary_isSome _ b a
theorem mli (b a : Operand) : Statement (.mli b a) := fun _ => ordinary_isSome _ b a
theorem div (b a : Operand) : Statement (.div b a) := fun _ => ordinary_isSome _ b a
theorem dvi (b a : Operand) : Statement (.dvi b a) := fun _ => ordinary_isSome _ b a
theorem mod (b a : Operand) : Statement (.mod b a) := fun _ => ordinary_isSome _ b a
theorem mdi (b a : Operand) : Statement (.mdi b a) := fun _ => ordinary_isSome _ b a
theorem and (b a : Operand) : Statement (.and b a) := fun _ => ordinary_isSome _ b a
theorem bor (b a : Operand) : Statement (.bor b a) := fun _ => ordinary_isSome _ b a
theorem xor (b a : Operand) : Statement (.xor b a) := fun _ => ordinary_isSome _ b a
theorem shr (b a : Operand) : Statement (.shr b a) := fun _ => ordinary_isSome _ b a
theorem asr (b a : Operand) : Statement (.asr b a) := fun _ => ordinary_isSome _ b a
theorem shl (b a : Operand) : Statement (.shl b a) := fun _ => ordinary_isSome _ b a
theorem ifb (b a : Operand) : Statement (.ifb b a) := fun _ => ordinary_isSome _ b a
theorem ifc (b a : Operand) : Statement (.ifc b a) := fun _ => ordinary_isSome _ b a
theorem ife (b a : Operand) : Statement (.ife b a) := fun _ => ordinary_isSome _ b a
theorem ifn (b a : Operand) : Statement (.ifn b a) := fun _ => ordinary_isSome _ b a
theorem ifg (b a : Operand) : Statement (.ifg b a) := fun _ => ordinary_isSome _ b a
theorem ifl (b a : Operand) : Statement (.ifl b a) := fun _ => ordinary_isSome _ b a
theorem adx (b a : Operand) : Statement (.adx b a) := fun _ => ordinary_isSome _ b a
theorem sbx (b a : Operand) : Statement (.sbx b a) := fun _ => ordinary_isSome _ b a
theorem sti (b a : Operand) : Statement (.sti b a) := fun _ => ordinary_isSome _ b a
theorem std (b a : Operand) : Statement (.std b a) := fun _ => ordinary_isSome _ b a
theorem jsr (a : Operand) : Statement (.jsr a) := fun _ => rfl
theorem int (a : Operand) : Statement (.int a) := fun _ => rfl
theorem iag (a : Operand) : Statement (.iag a) := fun _ => rfl
theorem ias (a : Operand) : Statement (.ias a) := fun _ => rfl
theorem iap (a : Operand) : Statement (.iap a) := fun _ => rfl
theorem iaq (a : Operand) : Statement (.iaq a) := fun _ => rfl
theorem hwn (a : Operand) : Statement (.hwn a) := fun _ => rfl
theorem hwq (a : Operand) : Statement (.hwq a) := fun _ => rfl
theorem hwi (a : Operand) : Statement (.hwi a) := fun _ => rfl
theorem hlt (a : Operand) : Statement (.hlt a) := fun c => by
  cases h : c.hltOp <;> simp [encode, encodeWith_hlt, Instr.wellFormed, Instr.hasCode, Instr.bOperand, Config.hltCode, h]

end Sys2Proof.Laws.Encodable
end

