-- ==== Sys2Proof/Tests/Slice0.lean ====
section
/-! SUPPORT. The model's own tests: the well-formedness smoke, words written out from the spec's encodings, one-step vectors
of 95_test_vectors, and for each obligation that has hypotheses a concrete state and operands that meet them. -/

namespace Sys2Proof.Tests

open Sys2Proof Sys2Proof.Machine

/-! ### Helpers -/

/-- The state after reset with these Words from address 0 on (R315). -/
def boot (words : List Word) : State := { State.reset with mem := Memory.zero.writeFrom 0 words }

/-- The next state of an outcome. -/
def nextOf (o : Host.Outcome State Fault Refusal) : Option State :=
  match o with
  | .next t => some t
  | .fault r => nomatch r
  | .refused _ => none

/-- What `view` shows of the state that one step leaves. -/
def after {α : Type} (s : State) (view : State → α) : Option α := (nextOf (step s)).map view

/-- A, EX and PC. -/
def aExPc (s : State) : Word × Word × Word := (s.reg .a, s.cpu.ex, s.cpu.pc)

/-- A parameter P_HLT_OP = 0x07 (R83). -/
def someHlt : HltOp := { code := 0x07, free := by decide }

/-- The parameters with P_HLT_OP, and without it. -/
def withHlt : Config := { hltOp := some someHlt }

/-- The parameters of a model that is not given P_HLT_OP. -/
def noHlt : Config := { hltOp := none }

/-- The state after reset with skip set. -/
def skipping : State := State.reset.setSkip true

/-! ### Well-formedness: an ill-formed term for each check (R74, R116; R83) -/

theorem test_inline_literal_in_b_is_ill_formed :
    (Instr.set (.inline 1) (.reg .a)).wellFormed noHlt = false ∧ encode noHlt (.set (.inline 1) (.reg .a)) = none ∧
      (Instr.set (.reg .a) (.inline 1)).wellFormed noHlt = true := by decide

theorem test_hlt_without_its_parameter_is_ill_formed :
    (Instr.hlt (.reg .a)).wellFormed noHlt = false ∧ encode noHlt (.hlt (.reg .a)) = none ∧
      (Instr.hlt (.reg .a)).wellFormed withHlt = true := by decide

/-! ### Decoding: words written out field by field, `a` (6 bits), `b` (5 bits), `op` (5 bits) (R70, R75, R80, R82) -/

theorem test_decode_moves_and_arithmetic :
    decode noHlt 0b0000000001000001 = .instr (.set (.reg .c) (.reg .a)) ∧ encode noHlt (.set (.reg .c) (.reg .a)) = some 0b0000000001000001 ∧
    decode noHlt 0b1000001110100010 = .instr (.add .ex (.inline 0)) ∧ encode noHlt (.add .ex (.inline 0)) = some 0b1000001110100010 ∧
    decode noHlt 0b1000101110000011 = .instr (.sub .pc (.inline 2)) ∧ encode noHlt (.sub .pc (.inline 2)) = some 0b1000101110000011 ∧
    decode noHlt 0b0111110000000100 = .instr (.mul (.reg .a) .litNext) ∧ encode noHlt (.mul (.reg .a) .litNext) = some 0b0111110000000100 ∧
    decode noHlt 0b0110010111100110 = .instr (.div (.ind .j) .peek) ∧ encode noHlt (.div (.ind .j) .peek) = some 0b0110010111100110 ∧
    decode noHlt 0b0110101011101000 = .instr (.mod (.indNext .j) .pick) ∧ encode noHlt (.mod (.indNext .j) .pick) = some 0b0110101011101000 := by decide

theorem test_decode_logic_and_shifts :
    decode noHlt 0b0110110010101010 = .instr (.and (.reg .z) .sp) ∧ encode noHlt (.and (.reg .z) .sp) = some 0b0110110010101010 ∧
    decode noHlt 0b0110001100001011 = .instr (.bor .pushPop .pushPop) ∧ encode noHlt (.bor .pushPop .pushPop) = some 0b0110001100001011 ∧
    decode noHlt 0b0111011111001100 = .instr (.xor .memNext .ex) ∧ encode noHlt (.xor .memNext .ex) = some 0b0111011111001100 ∧
    decode noHlt 0b1111111000001101 = .instr (.shr (.indNext .a) (.inline 31)) ∧ encode noHlt (.shr (.indNext .a) (.inline 31)) = some 0b1111111000001101 ∧
    decode noHlt 0b1001010001101111 = .instr (.shl (.reg .x) (.inline 5)) ∧ encode noHlt (.shl (.reg .x) (.inline 5)) = some 0b1001010001101111 := by decide

theorem test_decode_conditionals :
    decode noHlt 0b0010000000010000 = .instr (.ifb (.reg .a) (.ind .a)) ∧ encode noHlt (.ifb (.reg .a) (.ind .a)) = some 0b0010000000010000 ∧
    decode noHlt 0b0011000000110001 = .instr (.ifc (.reg .b) (.ind .y)) ∧ encode noHlt (.ifc (.reg .b) (.ind .y)) = some 0b0011000000110001 ∧
    decode noHlt 0b1000110000010010 = .instr (.ife (.reg .a) (.inline 3)) ∧ encode noHlt (.ife (.reg .a) (.inline 3)) = some 0b1000110000010010 ∧
    decode noHlt 0b1100010000010011 = .instr (.ifn (.reg .a) (.inline 0x11)) ∧ encode noHlt (.ifn (.reg .a) (.inline 0x11)) = some 0b1100010000010011 ∧
    decode noHlt 0b0111101111110100 = .instr (.ifg .litNext .memNext) ∧ encode noHlt (.ifg .litNext .memNext) = some 0b0111101111110100 ∧
    decode noHlt 0b0001110011010110 = .instr (.ifl (.reg .i) (.reg .j)) ∧ encode noHlt (.ifl (.reg .i) (.reg .j)) = some 0b0001110011010110 := by decide

theorem test_decode_inert_ordinary :
    decode noHlt 0b1001010000000101 = .instr (.mli (.reg .a) (.inline 5)) ∧ encode noHlt (.mli (.reg .a) (.inline 5)) = some 0b1001010000000101 ∧
    decode noHlt 0b0111000010000111 = .instr (.dvi (.reg .y) .pc) ∧ encode noHlt (.dvi (.reg .y) .pc) = some 0b0111000010000111 ∧
    decode noHlt 0b0000001101001001 = .instr (.mdi .pick (.reg .a)) ∧ encode noHlt (.mdi .pick (.reg .a)) = some 0b0000001101001001 ∧
    decode noHlt 0b1000100000001110 = .instr (.asr (.reg .a) (.inline 2)) ∧ encode noHlt (.asr (.reg .a) (.inline 2)) = some 0b1000100000001110 ∧
    decode noHlt 0b1000100000011010 = .instr (.adx (.reg .a) (.inline 2)) ∧ encode noHlt (.adx (.reg .a) (.inline 2)) = some 0b1000100000011010 ∧
    decode noHlt 0b0101001101111011 = .instr (.sbx .sp (.indNext .y)) ∧ encode noHlt (.sbx .sp (.indNext .y)) = some 0b0101001101111011 ∧
    decode noHlt 0b0011110111011110 = .instr (.sti (.ind .i) (.ind .j)) ∧ encode noHlt (.sti (.ind .i) (.ind .j)) = some 0b0011110111011110 ∧
    decode noHlt 0b0000101100111111 = .instr (.std .peek (.reg .c)) ∧ encode noHlt (.std .peek (.reg .c)) = some 0b0000101100111111 := by decide

theorem test_decode_extended :
    decode noHlt 0b0111110000100000 = .instr (.jsr .litNext) ∧ encode noHlt (.jsr .litNext) = some 0b0111110000100000 ∧
    decode noHlt 0b0110000100000000 = .instr (.int .pushPop) ∧ encode noHlt (.int .pushPop) = some 0b0110000100000000 ∧
    decode noHlt 0b0000000100100000 = .instr (.iag (.reg .a)) ∧ encode noHlt (.iag (.reg .a)) = some 0b0000000100100000 ∧
    decode noHlt 0b0111110101000000 = .instr (.ias .litNext) ∧ encode noHlt (.ias .litNext) = some 0b0111110101000000 ∧
    decode noHlt 0b1001100101100000 = .instr (.iap (.inline 6)) ∧ encode noHlt (.iap (.inline 6)) = some 0b1001100101100000 ∧
    decode noHlt 0b1000100110000000 = .instr (.iaq (.inline 2)) ∧ encode noHlt (.iaq (.inline 2)) = some 0b1000100110000000 ∧
    decode noHlt 0b0000001000000000 = .instr (.hwn (.reg .a)) ∧ encode noHlt (.hwn (.reg .a)) = some 0b0000001000000000 ∧
    decode noHlt 0b1000011000100000 = .instr (.hwq (.inline 1)) ∧ encode noHlt (.hwq (.inline 1)) = some 0b1000011000100000 ∧
    decode noHlt 0b0011011001000000 = .instr (.hwi (.ind .z)) ∧ encode noHlt (.hwi (.ind .z)) = some 0b0011011001000000 := by decide

theorem test_decode_hlt_with_its_parameter :
    decode withHlt 0b1000010011100000 = .instr (.hlt (.inline 1)) ∧ encode withHlt (.hlt (.inline 1)) = some 0b1000010011100000 := by decide

theorem test_decode_rejects_by_name :
    decode noHlt 0b0000000000010101 = .invalidOrdinary 0x15 (.reg .a) (.reg .a) ∧
    decode noHlt 0b0111111100111101 = .invalidOrdinary 0x1D .peek .litNext ∧
    decode noHlt 0b0000000000000000 = .invalidExtended 0x00 (.reg .a) ∧
    decode noHlt 0b0111111111100000 = .invalidExtended 0x1F .litNext ∧
    decode noHlt 0b1000010011100000 = .invalidExtended 0x07 (.inline 1) := by decide

/-- A row of spec/opcode_table.json by its bits: SET, HLT (R83: its word is read with P_HLT_OP as it needs), an unnamed
opcode, and the same words placed for the next step. -/
theorem test_table_words :
    decodeTableWord 16 0x0041 = some (.set (.reg .c) (.reg .a)) ∧ decodeTableWord 16 0x0000 = some (.hlt (.reg .a)) ∧
    decodeTableWord 16 0x0015 = none ∧ decodeTableWord 32 0x123480C1 = some (.set (.reg .i) (.inline 0)) := by decide

theorem test_placed_words_run :
    after (State.reset.withFetchWord 32 0x12347C01) aExPc = some (0x1234, 0, 2) ∧
    after (State.reset.withFetchWord 16 0x0000) (fun t => (t.report, t.cpu.pc)) = some (.halted, 1) := by decide

/-! ### One step: the vectors of 95_test_vectors section 3 -/

/-- 95_test_vectors 3.1. -/
theorem test_set_long :
    after ((boot [0x7C01, 0x1234]).setReg .a 0x0) aExPc = some (0x1234, 0x0, 2) := by decide

/-- 95_test_vectors 3.1, E7: EX as source and destination; a Literal destination. -/
theorem test_set_ex_and_literal :
    after ((boot [0x7401]).setEx 9) aExPc = some (9, 9, 1) ∧ after ((boot [0x9BA1]).setEx 1) aExPc = some (0, 5, 1) ∧
    after ((boot [0x03E1, 5]).setReg .a 7) (fun t => (t.reg .a, t.memRead 1, t.cpu.pc)) = some (7, 5, 2) := by decide

/-- 95_test_vectors 3.2. -/
theorem test_add :
    after ((boot [0x7C02, 0x1]).setReg .a 0xFFFF) aExPc = some (0x0, 0x1, 2) ∧
    after ((boot [0x7C02, 0x1]).setReg .a 0x7FFF) aExPc = some (0x8000, 0x0, 2) ∧
    after ((boot [0x7C02, 0xFFFF]).setReg .a 0xFFFF) aExPc = some (0xFFFE, 0x1, 2) := by decide

/-- 95_test_vectors 3.2, R152: with b = EX, the carry is what EX ends with; 3.13: ADD PC. -/
theorem test_add_ex_and_pc :
    after ((boot [0x83A2]).setEx 1) aExPc = some (0, 1, 1) ∧
    after (((boot []).setPc 0x10).memWrite 0x10 0x8382) (fun t => (t.cpu.pc, t.cpu.ex)) = some (0x10, 1) := by decide

/-- 95_test_vectors 3.3. -/
theorem test_sub :
    after ((boot [0x7C03, 0x1]).setReg .a 0x0) aExPc = some (0xFFFF, 0xFFFF, 2) ∧
    after ((boot [0x7C03, 0x5]).setReg .a 0x5) aExPc = some (0x0, 0x0, 2) ∧
    after ((boot [0x7C03, 0xFFFF]).setReg .a 0x1) aExPc = some (0x2, 0xFFFF, 2) ∧
    after ((boot [0x7C03, 0x1]).setReg .a 0x8000) aExPc = some (0x7FFF, 0x0, 2) := by decide

/-- 95_test_vectors 3.4. -/
theorem test_mul :
    after ((boot [0x7C04, 0x42]).setReg .a 0x17) aExPc = some (0x5EE, 0x0, 2) ∧
    after ((boot [0x7C04, 0xFFFF]).setReg .a 0xFFFF) aExPc = some (0x1, 0xFFFE, 2) ∧
    after ((boot [0x7C04, 0x100]).setReg .a 0x100) aExPc = some (0x0, 0x1, 2) := by decide

/-- 95_test_vectors 3.5, E4. -/
theorem test_div :
    after ((boot [0x7C06, 0x2]).setReg .a 0x7) aExPc = some (0x3, 0x8000, 2) ∧
    after (((boot [0x7C06, 0x0]).setReg .a 0x1234).setEx 0x5555) aExPc = some (0x0, 0x0, 2) ∧
    after ((boot [0x7C06, 0x3]).setReg .a 0x1) aExPc = some (0x0, 0x5555, 2) ∧
    after ((boot [0x7C06, 0xFFFF]).setReg .a 0xFFFF) aExPc = some (0x1, 0x0, 2) := by decide

/-- 95_test_vectors 3.6. -/
theorem test_mod :
    after (((boot [0x7C08, 0x2]).setReg .a 0x7).setEx 0x1234) aExPc = some (0x1, 0x1234, 2) ∧
    after (((boot [0x7C08, 0x0]).setReg .a 0x1234).setEx 0x1234) aExPc = some (0x0, 0x1234, 2) ∧
    after (((boot [0x7C08, 0x10]).setReg .a 0xFFFF).setEx 0x1234) aExPc = some (0xF, 0x1234, 2) := by decide

/-- 95_test_vectors 3.7. -/
theorem test_and :
    after (((boot [0x7C0A, 0xFF00]).setReg .a 0xF0F0).setEx 0x9) aExPc = some (0xF000, 0x9, 2) := by decide

/-- 95_test_vectors 3.7. -/
theorem test_bor :
    after (((boot [0x7C0B, 0xFF00]).setReg .a 0xF0F0).setEx 0x9) aExPc = some (0xFFF0, 0x9, 2) := by decide

/-- 95_test_vectors 3.7. -/
theorem test_xor :
    after (((boot [0x7C0C, 0xFF00]).setReg .a 0xF0F0).setEx 0x9) aExPc = some (0xFF0, 0x9, 2) := by decide

/-- 95_test_vectors 3.8. -/
theorem test_shl :
    after ((boot [0x7C0F, 0x1]).setReg .a 0x8001) aExPc = some (0x2, 0x1, 2) ∧
    after ((boot [0x7C0F, 0xF]).setReg .a 0x8001) aExPc = some (0x8000, 0x4000, 2) ∧
    after ((boot [0x7C0F, 0x11]).setReg .a 0x8001) aExPc = some (0x0, 0x2, 2) ∧
    after ((boot [0x7C0F, 0x20]).setReg .a 0x8001) aExPc = some (0x0, 0x0, 2) := by decide

/-- 95_test_vectors 3.8. -/
theorem test_shr :
    after ((boot [0x7C0D, 0x1]).setReg .a 0x8001) aExPc = some (0x4000, 0x8000, 2) ∧
    after ((boot [0x7C0D, 0xF]).setReg .a 0x8001) aExPc = some (0x1, 0x2, 2) ∧
    after ((boot [0x7C0D, 0x11]).setReg .a 0x8001) aExPc = some (0x0, 0x4000, 2) ∧
    after ((boot [0x7C0D, 0x20]).setReg .a 0x8001) aExPc = some (0x0, 0x0, 2) := by decide

/-- 95_test_vectors 3.9. -/
theorem test_ifb :
    after ((boot [0x7C10, 0xF0]).setReg .a 0xF) (fun t => t.cpu.skip) = some true ∧
    after ((boot [0x7C10, 0x1]).setReg .a 0xF) (fun t => t.cpu.skip) = some false := by decide

/-- 95_test_vectors 3.9. -/
theorem test_ifc :
    after ((boot [0x7C11, 0xF0]).setReg .a 0xF) (fun t => t.cpu.skip) = some false ∧
    after ((boot [0x7C11, 0x1]).setReg .a 0xF) (fun t => t.cpu.skip) = some true := by decide

/-- 95_test_vectors 3.9. -/
theorem test_ife :
    after ((boot [0x7C12, 0x5]).setReg .a 0x5) (fun t => t.cpu.skip) = some false ∧
    after ((boot [0x7C12, 0x6]).setReg .a 0x5) (fun t => t.cpu.skip) = some true := by decide

/-- 95_test_vectors 3.9. -/
theorem test_ifn :
    after ((boot [0x7C13, 0x5]).setReg .a 0x5) (fun t => t.cpu.skip) = some true ∧
    after ((boot [0x7C13, 0x6]).setReg .a 0x5) (fun t => t.cpu.skip) = some false := by decide

/-- 95_test_vectors 3.9. -/
theorem test_ifg :
    after ((boot [0x7C14, 0x1]).setReg .a 0xFFFF) (fun t => t.cpu.skip) = some false ∧
    after ((boot [0x7C14, 0x5]).setReg .a 0x5) (fun t => t.cpu.skip) = some true ∧
    after ((boot [0x7C14, 0xFFFF]).setReg .a 0x1) (fun t => t.cpu.skip) = some true := by decide

/-- 95_test_vectors 3.9. -/
theorem test_ifl :
    after ((boot [0x7C16, 0x1]).setReg .a 0xFFFF) (fun t => t.cpu.skip) = some true ∧
    after ((boot [0x7C16, 0x5]).setReg .a 0x5) (fun t => t.cpu.skip) = some true ∧
    after ((boot [0x7C16, 0xFFFF]).setReg .a 0x1) (fun t => t.cpu.skip) = some false := by decide

/-- 95_test_vectors 3.9, R188: a skipped PUSH moves SP and consumes its word, and nothing is written. -/
theorem test_skipped_push :
    after ((boot [0x7F12, 0x1234]).setSkip true) (fun t => (t.cpu.pc, t.cpu.sp, t.cpu.skip, t.memRead 0xFFFF)) =
      some (2, 0xFFFF, false, 0) := by decide

/-- 95_test_vectors 3.10. -/
theorem test_jsr :
    after (((boot []).setPc 0x10).memWrite 0x10 0x7C20 |>.memWrite 0x11 0x100)
      (fun t => (t.cpu.pc, t.cpu.sp, t.memRead 0xFFFF)) = some (0x100, 0xFFFF, 0x12) ∧
    after ((((boot []).setPc 0x10).setSp 0x200).memWrite 0x10 0x6C20)
      (fun t => (t.cpu.pc, t.cpu.sp, t.memRead 0x1FF)) = some (0x1FF, 0x1FF, 0x11) := by decide

/-- 95_test_vectors 3.10: JSR POP reads the cell that its own push has written. -/
theorem test_jsr_pop :
    after (((((boot []).setPc 0x10).setSp 0xFFF0).memWrite 0x10 0x6020).memWrite 0xFFF0 0x200)
      (fun t => (t.cpu.pc, t.cpu.sp, t.memRead 0xFFF0)) = some (0x11, 0xFFF0, 0x11) := by decide

/-- 95_test_vectors 3.11, with h = 0x07: the word is `h<<5 | 0x8400`. -/
theorem test_hlt :
    after { ((boot []).setPc 0x100).memWrite 0x100 0x84E0 with config := withHlt } (fun t => (t.report, t.cpu.pc)) =
      some (.halted, 0x101) := by decide

/-- 95_test_vectors 3.12, and the examples of R231-R238. -/
theorem test_inert_ordinary :
    after ((boot [0x9405]).setReg .a 3) aExPc = some (3, 0, 1) ∧
    after ((boot [0x880E]).setReg .a 0x8000) aExPc = some (0x8000, 0, 1) ∧
    after (((boot [0x881A]).setReg .a 1).setEx 1) aExPc = some (1, 1, 1) ∧
    after (((boot [0x3DDE]).setReg .i 5).setReg .j 6) (fun t => (t.reg .i, t.reg .j, t.memRead 5, t.cpu.pc)) =
      some (5, 6, 0, 1) ∧
    after ((boot [0x8C3F]).setReg .b 1) (fun t => (t.reg .b, t.reg .i, t.reg .j)) = some (1, 0, 0) ∧
    after ((boot [0x8C07]).setReg .a 6) aExPc = some (6, 0, 1) ∧
    after ((boot [0x8C09]).setReg .a 6) aExPc = some (6, 0, 1) ∧
    after (((boot [0x8C1B]).setReg .a 6).setEx 1) aExPc = some (6, 1, 1) := by decide

/-- 95_test_vectors 3.12, and the examples of R203-R210. -/
theorem test_inert_extended :
    after ((boot [0x6100]).setSp 0x100) (fun t => (t.cpu.sp, t.cpu.pc, t.report)) = some (0x101, 1, .ok) ∧
    after ((boot [0x0120]).setReg .a 0x1234) aExPc = some (0x1234, 0, 1) ∧
    after (boot [0x7D40, 0x200]) aExPc = some (0, 0, 2) ∧
    after ((boot [0x9960]).setSp 0x100) (fun t => (t.cpu.sp, t.cpu.pc)) = some (0x100, 1) ∧
    after (boot [0x8980]) aExPc = some (0, 0, 1) ∧ after ((boot [0x0200]).setReg .a 7) aExPc = some (7, 0, 1) ∧
    after (boot [0x8620]) aExPc = some (0, 0, 1) ∧ after (boot [0x8640]) aExPc = some (0, 0, 1) := by decide

/-- 95_test_vectors 3.13: SET PUSH, SP; ADD PUSH, POP; SET PUSH, PEEK; SET PICK 1, POP. -/
theorem test_stack_operands :
    after ((boot [0x6F01]).setSp 0x100) (fun t => (t.cpu.sp, t.memRead 0xFF)) = some (0xFF, 0xFF) ∧
    after (((boot [0x6302]).setSp 0x100).memWrite 0x100 0x42) (fun t => (t.cpu.sp, t.memRead 0x100)) =
      some (0x100, 0x84) ∧
    after (((boot [0x6701]).setSp 0x100).memWrite 0x100 0x42) (fun t => (t.cpu.sp, t.memRead 0xFF)) =
      some (0xFF, 0x42) ∧
    after (((boot [0x6341, 1]).setSp 0x100).memWrite 0x100 0x42) (fun t => (t.cpu.sp, t.memRead 0x102, t.cpu.pc)) =
      some (0x101, 0x42, 2) := by decide

/-- 95_test_vectors 3.13: SET A, POP at SP = 0 reads its own word; a fetch at 0xFFFF wraps; an indexed address wraps. -/
theorem test_wrapping_operands :
    after (boot [0x6001]) (fun t => (t.reg .a, t.cpu.sp)) = some (0x6001, 1) ∧
    after (((boot [0x55]).setPc 0xFFFF).memWrite 0xFFFF 0x7C01) aExPc = some (0x55, 0, 1) ∧
    after ((boot [0x7EC1, 0xBEEF, 0xFFF8]).setReg .i 0x10) (fun t => (t.memRead 8, t.cpu.pc)) = some (0xBEEF, 3) := by
  decide

/-- 95_test_vectors 3.14: the records of InvalidOpcode, and a skipped invalid word. -/
theorem test_faults :
    after (boot [0x0015]) (fun t => t.faultRecord) =
      some (some { kind := .invalidOpcode, pc := 1, code := 0x15, position := none }) ∧
    after (boot [0x7C00, 5]) (fun t => t.faultRecord) =
      some (some { kind := .invalidOpcode, pc := 2, code := 0, position := none }) ∧
    after (boot [0x7C1D, 5]) (fun t => t.faultRecord) =
      some (some { kind := .invalidOpcode, pc := 2, code := 0x1D, position := none }) ∧
    after (((boot [0x8812, 0x0015]).setPc 1).setSkip true) (fun t => (t.faultRecord, t.cpu.skip)) =
      some (some { kind := .invalidOpcode, pc := 2, code := 0x15, position := none }, true) := by decide

/-! ### Witnesses: for each obligation with hypotheses, what meets them all together -/

theorem witness_StepKeepsTheInvariant :
    State.reset.Inv ∧ ∃ t, step State.reset = .next t ∧ t.report = .fault ⟨.invalidOpcode, 1, 0, none⟩ := ⟨⟨rfl, nofun⟩, _, rfl, by decide⟩

theorem witness_DecodeOfEncodeIsTheInstruction :
    (Instr.sub (.indNext .j) (.inline 31)).wellFormed noHlt = true ∧ (Instr.hlt .pushPop).wellFormed withHlt = true := by decide

theorem witness_EncodeOfDecodeIsTheWord :
    decode noHlt 0xFFFF = .instr (.std .litNext (.inline 31)) ∧ decode withHlt 0x00E0 = .instr (.hlt (.reg .a)) := by decide

theorem witness_DecoderRejectsExactlyTheUnnamedWords :
    (0x15 : BitVec 5) ∈ unnamedOpcodes ∧ (0x1D : BitVec 5) ∈ unnamedOpcodes ∧ (0x1E : BitVec 5) ∉ unnamedOpcodes ∧
      isFreeDiscriminant 0x00 = true ∧ isFreeDiscriminant 0x1F = true ∧ isFreeDiscriminant 0x12 = false ∧
      noHlt.hltCode ≠ some 0x00 ∧ withHlt.hltCode ≠ some 0x1F ∧ ¬ (withHlt.hltCode ≠ some 0x07) := by decide

theorem witness_WordsOfTheSpecDecodeAsTheSpecSays :
    withHlt.hltCode ≠ some 0 ∧ noHlt.hltCode ≠ some 0 := by decide

theorem witness_EveryOpcodeValueNamesItsInstruction :
    withHlt.hltOp = some someHlt := rfl

theorem witness_InstructionLengthFollowsFromTheCodes :
    decode noHlt 0x7FC1 = .instr (.set .memNext .litNext) ∧ (Instr.set .memNext .litNext).length = 3 ∧
      decode noHlt 0x7C20 = .instr (.jsr .litNext) ∧ (Instr.jsr .litNext).length = 2 := by decide

theorem witness_StepRunsTheDecodedInstruction :
    (boot [0x0041]).cpu.status = .running ∧
      decode (boot [0x0041]).config ((boot [0x0041]).memRead (boot [0x0041]).cpu.pc) = .instr (.set (.reg .c) (.reg .a)) := by decide

theorem witness_QuiescentCoreIgnoresSteps :
    (State.reset.setStatus .halted).cpu.status = .halted ∧
      (State.reset.raiseFault .invalidOpcode 0x15 none).cpu.status = .faulted ⟨.invalidOpcode, 0, 0x15, none⟩ := by decide

theorem witness_OperandFormsResolveAsTheTableSays :
    [Reg.a, .b, .c, .x, .y, .z, .i, .j][0]? = some .a ∧ [Reg.a, .b, .c, .x, .y, .z, .i, .j][7]? = some .j ∧
      0x20 ≤ 0x20 ∧ 0x3F < 0x40 := by decide

theorem witness_PushAndPopMoveTheStackPointer :
    State.reset.cpu.sp.toNat = 0 ∧ (State.reset.setSp 0xFFFF).cpu.sp.toNat = 0xFFFF := by decide

theorem witness_StackOperandsOfOneInstructionInteract :
    (boot [1, 2]).cpu.skip = false ∧ (boot [1, 2]).mem.wf = true := by decide

/-- The hypotheses that the eleven statements of stored results share. -/
theorem witness_StoresResult :
    Operand.legalIn .litNext .b = true ∧ Operand.legalIn .pushPop .b = true ∧ (boot [1, 2]).cpu.skip = false ∧
      (boot [1, 2]).mem.wf = true := by decide

/-- Both clauses of each open condition, where they meet: the sum 65535 and 65536, equal and borrowing operands, the
divisors 0 and 1. -/
theorem witness_StoresResult_clauses :
    after ((boot [0x7C02, 1]).setReg .a 0xFFFE) aExPc = some (0xFFFF, 0, 2) ∧
    after ((boot [0x7C02, 1]).setReg .a 0xFFFF) aExPc = some (0, 1, 2) ∧
    after ((boot [0x7C03, 6]).setReg .a 6) aExPc = some (0, 0, 2) ∧
    after ((boot [0x7C03, 7]).setReg .a 6) aExPc = some (0xFFFF, 0xFFFF, 2) ∧
    after ((boot [0x7C06, 0]).setReg .a 6) aExPc = some (0, 0, 2) ∧
    after ((boot [0x7C06, 1]).setReg .a 6) aExPc = some (6, 0, 2) ∧
    after ((boot [0x7C08, 0]).setReg .a 6) aExPc = some (0, 0, 2) ∧
    after ((boot [0x7C08, 1]).setReg .a 6) aExPc = some (0, 0, 2) := by decide

theorem witness_ShiftCountsOf32OrMoreClearBoth :
    Instr.shl ∈ [Instr.shl, Instr.shr] ∧ Instr.shr ∈ [Instr.shl, Instr.shr] ∧ (boot [32]).cpu.skip = false ∧
      (boot [32]).mem.wf = true ∧
      resolveBoth (.reg .a) .litNext (boot [32]) = .resolved (.register .a, .literal 32) ((boot [32]).setPc 1) ∧
      32 ≤ (((boot [32]).setPc 1).getLoc (.literal 32)).toNat := ⟨List.mem_cons_self, by simp, by decide, by decide, rfl, by decide⟩

theorem witness_QuotientAndRemainderRebuildTheDividend :
    ((boot []).setReg .a 1).cpu.skip = false ∧
      resolveA (.reg .a) ((boot []).setReg .a 1) = .resolved (.register .a) ((boot []).setReg .a 1) ∧
      (((boot []).setReg .a 1).getLoc (.register .a)).toNat ≠ 0 := ⟨rfl, rfl, by decide⟩

theorem witness_LiteralDestinationDiscardsTheResult :
    (Instr.add .litNext .pushPop).writesB = true ∧ (Instr.add .litNext .pushPop).bOperand = some .litNext ∧
      State.reset.cpu.skip = false ∧ (Instr.set .litNext .ex).writesB = true ∧ (Instr.set .litNext .ex).writesEx = false := by decide

theorem witness_ConditionalsSetSkipToNotPredicate :
    Operand.legalIn .pushPop .b = true ∧ State.reset.cpu.skip = false := by decide

theorem witness_InertOrdinaryInstructionsOnlyResolve :
    Operand.legalIn .pushPop .b = true ∧ State.reset.cpu.skip = false ∧ skipping.cpu.skip = true := by decide

theorem witness_InertExtendedInstructionsOnlyResolve :
    State.reset.cpu.skip = false ∧ skipping.cpu.skip = true := by decide

/-- JSR SP, JSR POP (whose cell the push writes) and JSR of a register: one witness for each clause. -/
theorem witness_JsrPushesTheReturnAddressAndJumps :
    (boot [1]).cpu.skip = false ∧ (boot [1]).mem.wf = true ∧
      resolveA .sp (boot [1]) = .resolved .stackPointer (boot [1]) ∧
      resolveA .pushPop (boot [1]) = .resolved (.stackPop 0) ((boot [1]).setSp 1) ∧
      (Location.stackPop 0).cell = some (((boot [1]).setSp 1).cpu.sp - 1) ∧
      resolveA (.reg .a) (boot [1]) = .resolved (.register .a) (boot [1]) ∧ (Location.register .a).cell = none :=
  ⟨rfl, by decide, rfl, rfl, by decide, rfl, rfl⟩

theorem witness_JsrReadOrderMattersOnlyForSpAndThePushedCell :
    (boot [1]).mem.wf = true ∧ Location.register .a ≠ .stackPointer ∧
      (Location.register .a).cell ≠ some ((boot [1]).cpu.sp - 1) ∧
      (Location.memoryCell 0xFFFF).cell = some ((boot [1]).cpu.sp - 1) := by decide

theorem witness_ReturnUndoesCall :
    (boot [1]).cpu.skip = false ∧ (boot [1]).mem.wf = true := by decide

theorem witness_HltHaltsTheCore :
    State.reset.cpu.skip = false := rfl

theorem witness_SkippedInstructionOnlyResolvesItsOperands :
    ((boot [0x7F12, 1]).setSkip true).cpu.status = .running ∧ ((boot [0x7F12, 1]).setSkip true).cpu.skip = true ∧
      decode noHlt (((boot [0x7F12, 1]).setSkip true).memRead 0) = .instr (.ife .pushPop .litNext) := by decide

/-- An executed instruction that does not write PC, and a skipped one that would. -/
theorem witness_PcAfterAStepIsTheNextInstruction :
    (boot [0x0041]).cpu.status = .running ∧ decode noHlt ((boot [0x0041]).memRead 0) = .instr (.set (.reg .c) (.reg .a)) ∧
      (∃ t, step (boot [0x0041]) = .next t) ∧
      ¬ ((boot [0x0041]).cpu.skip = false ∧ ((Instr.set (.reg .c) (.reg .a)).isCall = true ∨
        ((Instr.set (.reg .c) (.reg .a)).writesB = true ∧ (Instr.set (.reg .c) (.reg .a)).bOperand = some .pc))) ∧
      decode noHlt (((boot [0x7C20]).setSkip true).memRead 0) = .instr (.jsr .litNext) ∧
      (∃ t, step ((boot [0x7C20]).setSkip true) = .next t) ∧ ((boot [0x7C20]).setSkip true).cpu.skip ≠ false :=
  ⟨rfl, by decide, ⟨_, rfl⟩, by decide, by decide, ⟨_, rfl⟩, by decide⟩

theorem witness_SkipLatchIsOneShot :
    (boot [0x8812]).cpu.status = .running ∧ decode noHlt ((boot [0x8812]).memRead 0) = .instr (.ife (.reg .a) (.inline 2)) ∧
      (∃ t, step (boot [0x8812]) = .next t ∧ t.cpu.skip = true) ∧ (boot [0x8812]).cpu.skip = false ∧
      (∃ t, step ((boot [0x8812]).setSkip true) = .next t) ∧ ((boot [0x8812]).setSkip true).cpu.skip = true :=
  ⟨rfl, by decide, ⟨_, rfl, by decide⟩, rfl, ⟨_, rfl⟩, rfl⟩

/-- A completed, a halting, a faulting and a skipped step. -/
theorem witness_StatusChangesOnlyByHltAndInvalidWords :
    (boot [0x0041]).cpu.status = .running ∧ after (boot [0x0041]) State.report = some .ok ∧
      after { boot [0x00E0] with config := withHlt } State.report = some .halted ∧
      after (boot [0x0015]) State.report = some (.fault ⟨.invalidOpcode, 1, 0x15, none⟩) ∧
      after { (boot [0x00E0]).setSkip true with config := withHlt } State.report = some .ok := by decide

theorem witness_InvalidWordFaultsAfterItsOperandsAreResolved :
    (boot [0x6315]).cpu.status = .running ∧
      decode noHlt ((boot [0x6315]).memRead 0) = .invalidOrdinary 0x15 .pushPop .pushPop ∧
      decode noHlt ((boot [0x7FE0]).memRead 0) = .invalidExtended 0x1F .litNext := by decide

theorem witness_ZeroWordFaults :
    State.reset.cpu.status = .running ∧ State.reset.memRead State.reset.cpu.pc = 0 ∧
      State.reset.config.hltCode ≠ some 0 := by decide

theorem witness_InvalidOperandCodeIsUnreachable :
    ∃ t, State.reset.cpu.status = .running ∧ step State.reset = .next t ∧
      t.cpu.status = .faulted ⟨.invalidOpcode, 1, 0, none⟩ := ⟨_, rfl, rfl, by decide⟩

theorem witness_IllegalBOperandFaultsBeforeTheHandler :
    (Instr.add (.inline 31) .pushPop).bOperand = some (.inline 31) := by decide

theorem witness_OnlyExWritersChangeEx :
    ∃ t, exec (.sub (.reg .a) (.inline 2)) State.reset = .next t ∧ t.cpu.ex ≠ State.reset.cpu.ex :=
  ⟨_, rfl, by decide⟩

theorem witness_NoHandlerReadsExImplicitly :
    (Instr.add (.reg .a) (.reg .b)).aOperand ≠ .ex ∧ (Instr.add (.reg .a) (.reg .b)).bOperand ≠ some .ex ∧
      State.reset.cpu.skip = false ∧ (Instr.add (.reg .a) (.reg .b)).writesEx = true ∧
      (Instr.add (.reg .a) (.reg .b)).bOperand.all (fun b => b.legalIn .b) = true := by decide

/-- A push, JSR's push, and an instruction that names no stack operand. -/
theorem witness_SpChangesOnlyByItsOwnOperations :
    (Instr.set .pushPop (.reg .a)).bOperand.all (fun b => b.legalIn .b) = true ∧
      (∃ t, exec (.set .pushPop (.reg .a)) State.reset = .next t ∧ t.cpu.sp = 0xFFFF) ∧
      (∃ t, exec (.jsr (.reg .a)) State.reset = .next t ∧ t.cpu.sp = 0xFFFF) ∧
      (∃ t, exec (.set .sp (.reg .a)) State.reset = .next t) ∧
      ¬ (State.reset.cpu.skip = false ∧ (Instr.set .pushPop (.reg .a)).writesB = true ∧
        (Instr.set .pushPop (.reg .a)).bOperand = some .sp) ∧
      (Instr.set .sp (.reg .a)).aOperand ≠ .pushPop ∧ (Instr.set .sp (.reg .a)).bOperand ≠ some .pushPop :=
  ⟨rfl, ⟨_, rfl, by decide⟩, ⟨_, rfl, by decide⟩, ⟨_, rfl⟩, by decide, by decide, by decide⟩

theorem witness_GeneralRegistersChangeOnlyAsDestination :
    ∃ t, exec (.set (.reg .j) (.inline 0)) State.reset = .next t ∧ t.reg .j ≠ State.reset.reg .j :=
  ⟨_, rfl, by decide⟩

theorem witness_MemoryChangesOnlyAtTheStoreCell :
    State.reset.mem.wf = true ∧ (∃ t, exec (.set .peek (.inline 0)) State.reset = .next t) ∧
      State.reset.storeCell (.set .peek (.inline 0)) ≠ some 1 ∧ State.reset.storeCell (.jsr (.reg .a)) = some 0xFFFF ∧
      (∃ t, exec (.set .peek (.inline 0)) skipping = .next t) ∧ skipping.cpu.skip = true :=
  ⟨rfl, ⟨_, rfl⟩, by decide, by decide, ⟨_, rfl⟩, rfl⟩

theorem witness_NoStepChangesTheParameters : ∃ t : State, step { boot [0x00E0] with config := withHlt } = .next t := ⟨_, rfl⟩

theorem witness_ResetAndClearAreIndependent :
    System.view (System.doClear { cores := [Cpu.reset, Cpu.reset], mem := Memory.zero.write 1 2, config := noHlt }) 1 =
      some State.reset := by decide

theorem witness_BootReachesTheSameStateFromAnyPowerOnState :
    (List.replicate 65536 (1 : Word)).length ≤ 65536 := by rw [List.length_replicate]

/-- The longest load, and one Word more. -/
theorem witness_LoadWritesTheProgramFromAddressZero :
    State.reset.mem.wf = true ∧ (List.replicate 65536 (1 : Word)).length ≤ 65536 ∧
      (List.replicate 65537 (1 : Word)).length > 65536 :=
  ⟨rfl, by rw [List.length_replicate], by rw [List.length_replicate]; decide⟩

/-- The last address and the first one outside; a value that is truncated. -/
theorem witness_HostMemoryPortReadsAndWritesCells :
    State.reset.mem.wf = true ∧ State.reset.hostRead 65535 = .ok 0 ∧
      (nextOf (State.reset.hostWrite 65535 (-1))).map (fun t => t.memRead 0xFFFF) = some 0xFFFF ∧
      State.reset.hostRead 65536 = .error .addressOutOfRange ∧ nextOf (State.reset.hostWrite 65536 0) = none :=
  ⟨rfl, rfl, by decide, rfl, by decide⟩

theorem witness_StoredWordIsFetchedByTheNextStep :
    ((boot [0x7FC1, 0x0041, 0x0003]).setPc 1).cpu.skip = false ∧
      ((boot [0x7FC1, 0x0041, 0x0003]).setPc 1).mem.wf = true ∧
      ((boot [0x7FC1, 0x0041, 0x0003]).setPc 1).memRead 1 = 0x0041 ∧
      ((boot [0x7FC1, 0x0041, 0x0003]).setPc 1).memRead (1 + 1) = 1 + 2 := by decide

/-- 95_test_vectors 3.15: `SUB PC, 1` at 5, and `SET PC, long 0` at 0. -/
theorem witness_SelfJumpStopsRunInTwoSteps :
    (((boot []).setPc 5).memWrite 5 0x8B83).memRead 5 = 0x8B83 ∧ (((boot []).setPc 5).memWrite 5 0x8B83).cpu.pc = 5 ∧
      (((boot []).setPc 5).memWrite 5 0x8B83).cpu.status = .running ∧ (boot [0x7F81, 0]).memRead 0 = 0x7F81 ∧
      (boot [0x7F81, 0]).memRead 1 = 0 ∧ (boot [0x7F81, 0]).cpu.skip = false := by decide

/-- 95_test_vectors E8: `SET PC, 0` at 0. -/
theorem witness_RunStopsOnlyAfterTwoStableSteps : ∃ t, run 2 (boot [0x8781]) = .stopped t ∧ t.cpu.pc = 0 :=
  ⟨_, rfl, by decide⟩

theorem witness_RunReturnsAtOnceOnHaltOrFault :
    (∃ t, step State.reset = .next t ∧ t.cpu.status = .faulted ⟨.invalidOpcode, 1, 0, none⟩) ∧
      ∃ t : State, step { boot [0x00E0] with config := withHlt } = .next t ∧ t.cpu.status = .halted :=
  ⟨⟨_, rfl, by decide⟩, _, rfl, by decide⟩

/-- Two cores, the first stepped: it stores into the cell that the second then sees. -/
theorem witness_CoresShareOnlyTheMemory :
    ∃ s t, System.view { cores := [Cpu.reset, Cpu.reset], mem := (boot [0x9B21]).mem, config := noHlt } 0 = some s ∧
      step s = .next t ∧ t.memRead 0 = 5 ∧ t.cpu.pc = 1 := ⟨_, _, rfl, rfl, by decide, by decide⟩

/-- The assignment of R80 and R82, and another one, in which SET and ADD have changed places. -/
theorem witness_EveryOpcodeAssignmentEncodesAsItDecodes :
    (opcodeMap.map Prod.fst).Nodup ∧ (opcodeMap.map Prod.snd).Nodup ∧ 0 ∉ opcodeMap.map Prod.fst ∧
      (extMap.map Prod.fst).Nodup ∧ (extMap.map Prod.snd).Nodup ∧ withHlt.hltCode = some 0x07 ∧
      0x07 ∉ extMap.map Prod.fst ∧
      encodeWith [(1, .add), (2, .set)] extMap withHlt (.add (.reg .c) (.reg .a)) = some 0x0041 ∧
      decodeWith [(1, .add), (2, .set)] extMap withHlt 0x0041 = .instr (.add (.reg .c) (.reg .a)) := by decide

/-- SET PUSH, PEEK, and a pair of operands that is not this one. -/
theorem witness_PeekBindingMattersOnlyWhereSpMovesAfterThePeek :
    resolveBoth .pushPop .peek (boot [1]) = .resolved (.stackPush 0xFFFF, .stackPeek 0) ((boot [1]).setSp 0xFFFF) ∧
      resolveBoth .peek .pushPop (boot [1]) = .resolved (.stackPeek 1, .stackPop 0) ((boot [1]).setSp 1) ∧
      resolveA .pushPop (boot [1]) = .resolved (.stackPop 0) ((boot [1]).setSp 1) ∧ (boot [1]).mem.wf = true :=
  ⟨rfl, rfl, rfl, by decide⟩

/-- The last core of a system of two, and the number after it. -/
theorem witness_ResetOfOneCoreTouchesNoOther :
    1 < (System.mk [Cpu.reset, Cpu.reset] Memory.zero noHlt).cores.length ∧
      (System.mk [Cpu.reset, Cpu.reset] Memory.zero noHlt).cores.length ≤ 2 := by decide

end Sys2Proof.Tests
end

section
/-! SUPPORT. Encoding and decoding under any assignment of opcode and discriminant values: each is one of three cases, which
the fields of the word decide, so the two agree case by case. -/

namespace Sys2Proof

/-- The form that the b field of a word names (R74, R75). -/
def bForm (w : Word) : Operand := Operand.ofCode ((bField w).setWidth 6)

/-- The form that the a field of a word names (R75). -/
def aForm (w : Word) : Operand := Operand.ofCode (aField w)

/-- An ordinary word is its opcode and its two operands (R71). -/
theorem encodeOrdinary_eq_some_iff {n : BitVec 5} {b a : Operand} {w : Word} :
    encodeOrdinary n b a = some w ↔ n = opField w ∧ b = bForm w ∧ a = aForm w := by
  constructor
  · intro h
    cases hb : b.legalIn .b with
    | false => simp [encodeOrdinary, hb] at h
    | true =>
      simp only [encodeOrdinary, hb, if_true, Option.some.injEq] at h
      subst h
      simp [bForm, aForm, code_setWidth hb]
  · rintro ⟨rfl, rfl, rfl⟩
    simp [encodeOrdinary, bForm, aForm, legalIn_ofCode, pack_fields]

/-- An extended word has op = 0 and is its discriminant and its operand (R72). -/
theorem encodeExtended_eq_iff {d : BitVec 5} {a : Operand} {w : Word} :
    encodeExtended d a = w ↔ opField w = 0 ∧ d = bField w ∧ a = aForm w := by
  constructor
  · rintro rfl
    simp [encodeExtended, aForm]
  · rintro ⟨h0, rfl, rfl⟩
    simp only [encodeExtended, aForm, code_ofCode, ← h0, pack_fields]

/-- Where the encoder answers the word `w`: an ordinary operation numbered by its opcode, an extended one numbered by its
discriminant, or HLT with P_HLT_OP there, the operands being those that the fields name. -/
theorem encodeWith_eq_some_iff {om : OpcodeMap} {em : ExtMap} {c : Config} {i : Instr} {w : Word} :
    encodeWith om em c i = some w ↔
      (∃ o, numberOf om o = some (opField w) ∧ i = OrdinaryOp.instr o (bForm w) (aForm w)) ∨
      (opField w = 0 ∧ ∃ o, numberOf em o = some (bField w) ∧ i = ExtendedOp.instr o (aForm w)) ∨
      (opField w = 0 ∧ c.hltCode = some (bField w) ∧ i = .hlt (aForm w)) := by
  constructor
  · intro h
    rcases instr_cases i with ⟨o, b, a, rfl⟩ | ⟨o, a, rfl⟩ | ⟨a, rfl⟩
    · rw [encodeWith_ordinary, Option.bind_eq_some_iff] at h
      obtain ⟨n, hn, hw⟩ := h
      obtain ⟨rfl, rfl, rfl⟩ := encodeOrdinary_eq_some_iff.mp hw
      exact .inl ⟨o, hn, rfl⟩
    · rw [encodeWith_extended, Option.map_eq_some_iff] at h
      obtain ⟨d, hd, hw⟩ := h
      obtain ⟨h0, rfl, rfl⟩ := encodeExtended_eq_iff.mp hw
      exact .inr (.inl ⟨h0, o, hd, rfl⟩)
    · rw [encodeWith_hlt, Option.map_eq_some_iff] at h
      obtain ⟨d, hd, hw⟩ := h
      obtain ⟨h0, rfl, rfl⟩ := encodeExtended_eq_iff.mp hw
      exact .inr (.inr ⟨h0, hd, rfl⟩)
  · rintro (⟨o, hn, rfl⟩ | ⟨h0, o, hd, rfl⟩ | ⟨h0, hd, rfl⟩)
    · rw [encodeWith_ordinary, Option.bind_eq_some_iff]
      exact ⟨_, hn, encodeOrdinary_eq_some_iff.mpr ⟨rfl, rfl, rfl⟩⟩
    · rw [encodeWith_extended, Option.map_eq_some_iff]
      exact ⟨_, hd, encodeExtended_eq_iff.mpr ⟨h0, rfl, rfl⟩⟩
    · rw [encodeWith_hlt, Option.map_eq_some_iff]
      exact ⟨_, hd, encodeExtended_eq_iff.mpr ⟨h0, rfl, rfl⟩⟩

/-- Where the lookup of a discriminant succeeds: on a row of EXT_MAP, or on P_HLT_OP where EXT_MAP has no such row (R83). -/
theorem extLookup_eq_some_iff {em : ExtMap} {c : Config} {d : BitVec 5} {f : Operand → Instr} :
    extLookup em c d = some f ↔
      (∃ o, em.lookup d = some o ∧ f = ExtendedOp.instr o) ∨
      (em.lookup d = none ∧ c.hltCode = some d ∧ f = .hlt) := by
  unfold extLookup
  cases em.lookup d with
  | some o => simp [eq_comm]
  | none => simp [eq_comm (a := f)]

/-- Where the decoder reads the instruction `i`: from the row of the opcode, from the row of the discriminant, or from
P_HLT_OP, with the operands that the fields name. -/
theorem decodeWith_eq_instr_iff {om : OpcodeMap} {em : ExtMap} {c : Config} {i : Instr} {w : Word} :
    decodeWith om em c w = .instr i ↔
      (opField w ≠ 0 ∧ ∃ o, om.lookup (opField w) = some o ∧ i = OrdinaryOp.instr o (bForm w) (aForm w)) ∨
      (opField w = 0 ∧ ∃ o, em.lookup (bField w) = some o ∧ i = ExtendedOp.instr o (aForm w)) ∨
      (opField w = 0 ∧ em.lookup (bField w) = none ∧ c.hltCode = some (bField w) ∧ i = .hlt (aForm w)) := by
  by_cases h0 : opField w = 0
  · have hf : decodeWith om em c w = .instr i ↔ ∃ f, extLookup em c (bField w) = some f ∧ i = f (aForm w) := by
      simp only [decodeWith, h0, if_true, aForm]
      cases extLookup em c (bField w) <;> simp [eq_comm]
    rw [hf]
    simp only [extLookup_eq_some_iff, h0, ne_eq, not_true_eq_false, false_and, true_and, false_or]
    constructor
    · rintro ⟨_, ⟨o, ho, rfl⟩ | ⟨hn, hc, rfl⟩, rfl⟩
      · exact .inl ⟨o, ho, rfl⟩
      · exact .inr ⟨hn, hc, rfl⟩
    · rintro (⟨o, ho, rfl⟩ | ⟨hn, hc, rfl⟩)
      · exact ⟨_, .inl ⟨o, ho, rfl⟩, rfl⟩
      · exact ⟨_, .inr ⟨hn, hc, rfl⟩, rfl⟩
  · simp only [decodeWith, h0, if_false, ne_eq, not_false_eq_true, true_and, false_and, or_false, bForm, aForm]
    cases om.lookup (opField w) <;> simp [eq_comm]

/-- A value that no row of a table has looks nothing up. -/
theorem lookup_eq_none_of_not_mem {β : Type} {l : List (BitVec 5 × β)} {k : BitVec 5} (h : k ∉ l.map Prod.fst) :
    l.lookup k = none :=
  List.lookup_eq_none_iff.mpr fun _ hp => bne_iff_ne.mpr fun e => h (e ▸ List.mem_map_of_mem hp)

/-- Settles O56: the encoder and the decoder each answer in one of three cases, and numbering is the inverse of lookup in
both tables. The value 0 apart in OPCODE_MAP keeps the formats apart, and P_HLT_OP apart from EXT_MAP keeps HLT apart. -/
theorem everyOpcodeAssignmentEncodesAsItDecodes : Obligations.EveryOpcodeAssignmentEncodesAsItDecodes := by
  intro om em c i w hok hov h0 hek hev hhlt
  have hop : ∀ o, om.lookup (opField w) = some o → opField w ≠ 0 := fun o e z =>
    h0 (z ▸ List.mem_map_of_mem (f := Prod.fst) (mem_of_lookup e))
  have hfree : c.hltCode = some (bField w) → em.lookup (bField w) = none := fun e =>
    lookup_eq_none_of_not_mem (hhlt _ e)
  rw [encodeWith_eq_some_iff, decodeWith_eq_instr_iff]
  simp only [numberOf_eq_some_iff hok hov, numberOf_eq_some_iff hek hev]
  constructor
  · rintro (⟨o, ho, hi⟩ | hext | ⟨hz, hc, hi⟩)
    · exact .inl ⟨hop o ho, o, ho, hi⟩
    · exact .inr (.inl hext)
    · exact .inr (.inr ⟨hz, hfree hc, hc, hi⟩)
  · rintro (⟨-, hord⟩ | hext | ⟨hz, -, hc, hi⟩)
    · exact .inl hord
    · exact .inr (.inl hext)
    · exact .inr (.inr ⟨hz, hc, hi⟩)

end Sys2Proof
end

section
/-! SUPPORT. The handlers that `exec` runs, and that no step changes the parameters. -/

namespace Sys2Proof.Machine

/-- The handlers that `exec` gives the ordinary instructions (R140, R180, R230). -/
inductive OrdinaryHandler : (Location → Location → State → State) → Prop where
  | move : OrdinaryHandler moveHandler
  | arith (value : Word → Word → Word) : OrdinaryHandler (arithHandler value)
  | arithEx (value ex : Word → Word → Word) : OrdinaryHandler (arithExHandler value ex)
  | condition (holds : Word → Word → Bool) : OrdinaryHandler (conditionHandler holds)
  | inert : OrdinaryHandler inertHandler

/-- The handlers that `exec` gives the extended instructions (R201-R211). -/
inductive ExtendedHandler : (Location → State → State) → Prop where
  | call (order : JsrReadOrder) : ExtendedHandler (callHandler order)
  | halt : ExtendedHandler haltHandler
  | inert : ExtendedHandler inertExtendedHandler

/-- `exec_cases` with the handlers known: which ones `exec` runs in the shared part of a step. -/
theorem exec_handler_cases (i : Instr) :
    (∃ b h, OrdinaryHandler h ∧ i.bOperand = some b ∧ ∀ s, exec i s = .next (ordinary h b i.aOperand s)) ∨
    (∃ h, ExtendedHandler h ∧ i.bOperand = none ∧ ∀ s, exec i s = .next (extended h i.aOperand s)) := by
  cases i with
  | set => exact .inl ⟨_, _, .move, rfl, fun _ => rfl⟩
  | add | sub | mul | div | shl | shr => exact .inl ⟨_, _, .arithEx _ _, rfl, fun _ => rfl⟩
  | mod | and | bor | xor => exact .inl ⟨_, _, .arith _, rfl, fun _ => rfl⟩
  | ifb | ifc | ife | ifn | ifg | ifl => exact .inl ⟨_, _, .condition _, rfl, fun _ => rfl⟩
  | mli | dvi | mdi | asr | adx | sbx | sti | std => exact .inl ⟨_, _, .inert, rfl, fun _ => rfl⟩
  | jsr => exact .inr ⟨_, .call _, rfl, fun _ => rfl⟩
  | hlt => exact .inr ⟨_, .halt, rfl, fun _ => rfl⟩
  | int | iag | ias | iap | iaq | hwn | hwq | hwi => exact .inr ⟨_, .inert, rfl, fun _ => rfl⟩

theorem OrdinaryHandler.config {h : Location → Location → State → State} (hh : OrdinaryHandler h) (lb la : Location)
    (s : State) : (h lb la s).config = s.config := by
  cases hh with
  | move => simp [moveHandler]
  | arith => simp [arithHandler]
  | arithEx => simp [arithExHandler]
  | condition => simp [conditionHandler]
  | inert => rfl

theorem ExtendedHandler.config {h : Location → State → State} (hh : ExtendedHandler h) (la : Location) (s : State) :
    (h la s).config = s.config := by
  cases hh with
  | call order => cases order <;> simp [callHandler]
  | halt => simp [haltHandler]
  | inert => rfl

@[simp] theorem illegalOperand_config (o : Operand) (p : Position) (s : State) :
    (illegalOperand o p s).config = s.config := rfl

/-- The shared part of a step keeps the parameters where the handler does. -/
theorem ordinary_config {h : Location → Location → State → State} (hh : OrdinaryHandler h) (b a : Operand) (s : State) :
    (ordinary h b a s).config = s.config := by
  cases hb : b.legalIn .b with
  | false => simp [ordinary_illegal s a hb]
  | true =>
    obtain ⟨lb, la, s1, rfl, -, e⟩ := ordinary_legal s a hb
    cases hs : s.cpu.skip <;> simp [e, hs, hh.config]

theorem extended_config {h : Location → State → State} (hh : ExtendedHandler h) (a : Operand) (s : State) :
    (extended h a s).config = s.config := by
  obtain ⟨la, s1, rfl, -, e⟩ := extended_eq s a
  cases hs : s.cpu.skip <;> simp [e, hs, hh.config]

theorem exec_config {i : Instr} {s t : State} (h : exec i s = .next t) : t.config = s.config := by
  rcases exec_handler_cases i with ⟨b, f, hf, -, e⟩ | ⟨f, hf, -, e⟩
  · cases (e s).symm.trans h
    exact ordinary_config hf _ _ s
  · cases (e s).symm.trans h
    exact extended_config hf _ s

theorem invalidOrdinary_config (op : BitVec 5) (b a : Operand) (s : State) :
    (invalidOrdinary op b a s).config = s.config := by
  cases hb : b.legalIn .b with
  | false => simp [invalidOrdinary, resolveBoth_illegal s a hb]
  | true => simp [invalidOrdinary_legal s op a hb]

theorem invalidExtended_config (disc : BitVec 5) (a : Operand) (s : State) :
    (invalidExtended disc a s).config = s.config := by simp [invalidExtended_eq]

/-- Settles O45, by the cases of a step: nothing, an instruction, or a word that names no operation. -/
theorem noStepChangesTheParameters : Obligations.NoStepChangesTheParameters := by
  intro s t h
  rcases step_cases s with ⟨-, e⟩ | ⟨-, i, -, e⟩ | ⟨-, op, b, a, -, e⟩ | ⟨-, d, a, -, e⟩
  · cases e.symm.trans h
    rfl
  · exact exec_config (s := s.afterFetch) (e.symm.trans h)
  · cases e.symm.trans h
    exact invalidOrdinary_config op b a s.afterFetch
  · cases e.symm.trans h
    exact invalidExtended_config d a s.afterFetch

end Sys2Proof.Machine
end

section
/-! SUPPORT. P_PEEK_BINDING: only a peek Location whose SP has moved since its resolution is read and written otherwise under
at_get (R118). -/

namespace Sys2Proof.Machine

/-- SP of the state is what every peek Location `l` holds: the two values of P_PEEK_BINDING name one address. -/
def Location.PeekAtSp (l : Location) (s : State) : Prop := ∀ x, l = .stackPeek x → s.cpu.sp = x

theorem Location.PeekAtSp.getLocWith_eq {l : Location} {s : State} (h : l.PeekAtSp s) (reading : PushRead) :
    s.getLocWith .atGet reading l = s.getLocWith .atResolution reading l := by
  cases l with
  | stackPeek x => exact congrArg s.memRead (h x rfl)
  | _ => rfl

theorem Location.PeekAtSp.setLocWith_eq {l : Location} {s : State} (h : l.PeekAtSp s) (v : Word) :
    s.setLocWith .atGet l v = s.setLocWith .atResolution l v := by
  cases l with
  | stackPeek x => exact congrArg (s.memWrite · v) (h x rfl)
  | _ => rfl

/-- Only PEEK resolves to a peek Location, which holds SP; it moves nothing (R108). -/
theorem resolve_stackPeek {o : Operand} {p : Position} {s s1 : State} {x : Word}
    (h : resolve o p s = (some (.stackPeek x), s1)) : o = .peek ∧ x = s.cpu.sp ∧ s1 = s := by
  cases o with
  | peek => cases h; exact ⟨rfl, rfl, rfl⟩
  | pushPop => cases p <;> cases h
  | inline k => cases p <;> cases h
  | _ => cases h

/-- Resolving any form but PUSH and POP keeps SP. -/
theorem resolve_sp {o : Operand} {p : Position} {s s1 : State} {l : Location} (ho : o ≠ .pushPop)
    (h : resolve o p s = (some l, s1)) : s1.cpu.sp = s.cpu.sp := by
  cases hl : o.legalIn p with
  | false => rw [resolve_illegal s hl] at h; cases h
  | true =>
    obtain ⟨l', e⟩ := resolve_legal s hl
    have hmove : o.spMove p = 0 := by
      cases o with
      | pushPop => exact absurd rfl ho
      | _ => rfl
    cases e.symm.trans h
    simp [hmove]

/-- A resolved Location, in the state that its resolution left, is no peek at a moved SP. -/
theorem resolve_peekAtSp {o : Operand} {p : Position} {s s1 : State} {l : Location}
    (h : resolve o p s = (some l, s1)) : l.PeekAtSp s1 := by
  rintro x rfl
  obtain ⟨-, rfl, rfl⟩ := resolve_stackPeek h
  rfl

/-- Both operands are resolved where a is and then b, from the state that a's resolution left (R124). -/
theorem resolveBoth_eq_resolved {b a : Operand} {s s1 : State} {lb la : Location}
    (h : resolveBoth b a s = .resolved (lb, la) s1) :
    ∃ s0, resolve a .a s = (some la, s0) ∧ resolve b .b s0 = (some lb, s1) := by
  unfold resolveBoth at h
  split at h
  · cases h
  · next la' s0 ha =>
    split at h
    · cases h
    · next lb' s2 hb => cases h; exact ⟨s0, ha, hb⟩

theorem resolveA_eq_resolved {a : Operand} {s s1 : State} {la : Location} (h : resolveA a s = .resolved la s1) :
    resolve a .a s = (some la, s1) := by
  unfold resolveA at h
  split at h
  · next e => cases h; exact e
  · cases h

/-- Unless a is PEEK and b PUSH, a's Location is no peek at an SP that b's resolution has moved. -/
theorem resolveBoth_peekAtSp {b a : Operand} {s s1 : State} {lb la : Location}
    (h : resolveBoth b a s = .resolved (lb, la) s1) (hn : ¬ (a = .peek ∧ b = .pushPop)) : la.PeekAtSp s1 := by
  rintro x rfl
  obtain ⟨s0, ha, hb⟩ := resolveBoth_eq_resolved h
  obtain ⟨rfl, rfl, rfl⟩ := resolve_stackPeek ha
  exact resolve_sp (fun e => hn ⟨rfl, e⟩) hb

/-- JSR PEEK's handler-time reads (R201): the push leaves the old top of the stack at its address and puts the Word at the
new SP. -/
theorem push_getLocWith_stackPeek {s : State} (h : s.mem.wf = true) (v : Word) :
    (s.push v).getLocWith .atResolution .cell (.stackPeek s.cpu.sp) = s.memRead s.cpu.sp ∧
      (s.push v).getLocWith .atGet .cell (.stackPeek s.cpu.sp) = v := by
  have hwf : (s.setSp (s.cpu.sp - 1)).mem.wf = true := h
  have hne : s.cpu.sp ≠ s.cpu.sp - 1 := by bv_omega
  constructor
  · exact (State.memRead_memWrite hwf _ _ _).trans (if_neg hne)
  · exact (State.memRead_memWrite hwf _ _ _).trans (if_pos rfl)

/-- Settles O57: a peek Location holds SP at its resolution, so the two values differ only where SP has moved since; the
one form that moves it under a resolved a is b = PUSH, and the one handler that does is JSR's. -/
theorem peekBindingMattersOnlyWhereSpMovesAfterThePeek :
    Obligations.PeekBindingMattersOnlyWhereSpMovesAfterThePeek := by
  refine ⟨fun b a s s1 lb la v h => ?_, fun a s s1 t la ha h => ?_, fun s hm => ?_⟩
  · obtain ⟨s0, -, hb⟩ := resolveBoth_eq_resolved h
    refine ⟨(resolve_peekAtSp hb).getLocWith_eq _, (resolve_peekAtSp hb).setLocWith_eq v,
      fun hn => (resolveBoth_peekAtSp h hn).getLocWith_eq _, ?_⟩
    rintro ⟨rfl, rfl⟩
    cases h
    exact ⟨rfl, rfl⟩
  · have hla : la.PeekAtSp t := by
      rintro x rfl
      exact absurd (resolve_stackPeek (resolveA_eq_resolved h)).1 ha
    exact hla.getLocWith_eq _
  · exact ⟨_, s, rfl, push_getLocWith_stackPeek hm s.cpu.pc⟩

end Sys2Proof.Machine
end

section
/-! SUPPORT. What `exec` can do, said once for the claims about what an instruction changes: the handler that it runs, where
it runs it, and what each handler leaves of each part of the state. -/

namespace Sys2Proof.Machine

/-- `OrdinaryHandler` with the classes of the instruction that the statements speak of: which of them `exec` gives the
handler to. SET's handler is a store too, of a value that does not depend on b. -/
inductive OrdinaryMeaning (i : Instr) : (Location → Location → State → State) → Prop where
  | store (value : Word → Word → Word) (writesB : i.writesB = true) (noEx : i.writesEx = false) :
      OrdinaryMeaning i (arithHandler value)
  | storeEx (value ex : Word → Word → Word) (writesB : i.writesB = true) (writesEx : i.writesEx = true) :
      OrdinaryMeaning i (arithExHandler value ex)
  | condition (holds : Word → Word → Bool) (isConditional : i.isConditional = true) (noEx : i.writesEx = false) :
      OrdinaryMeaning i (conditionHandler holds)
  | inert (noEx : i.writesEx = false) : OrdinaryMeaning i inertHandler

/-- `ExtendedHandler` with the classes of the instruction that the statements speak of. -/
inductive ExtendedMeaning (i : Instr) : (Location → State → State) → Prop where
  | call (order : JsrReadOrder) (isCall : i.isCall = true) (noHalt : i.isHalt = false) :
      ExtendedMeaning i (callHandler order)
  | halt (noCall : i.isCall = false) (isHalt : i.isHalt = true) : ExtendedMeaning i haltHandler
  | inert (noCall : i.isCall = false) (noHalt : i.isHalt = false) : ExtendedMeaning i inertExtendedHandler

/-- `exec` runs, in the shared part of a step, a handler that fits the instruction's classes. -/
theorem exec_meaning (i : Instr) :
    (∃ b h, OrdinaryMeaning i h ∧ i.bOperand = some b ∧ ∀ s, exec i s = .next (ordinary h b i.aOperand s)) ∨
    (∃ h, ExtendedMeaning i h ∧ i.bOperand = none ∧ ∀ s, exec i s = .next (extended h i.aOperand s)) := by
  cases i with
  | set => exact .inl ⟨_, _, .store (fun _ a => a) rfl rfl, rfl, fun _ => rfl⟩
  | mod | and | bor | xor => exact .inl ⟨_, _, .store _ rfl rfl, rfl, fun _ => rfl⟩
  | add | sub | mul | div | shl | shr => exact .inl ⟨_, _, .storeEx _ _ rfl rfl, rfl, fun _ => rfl⟩
  | ifb | ifc | ife | ifn | ifg | ifl => exact .inl ⟨_, _, .condition _ rfl rfl, rfl, fun _ => rfl⟩
  | mli | dvi | mdi | asr | adx | sbx | sti | std => exact .inl ⟨_, _, .inert rfl, rfl, fun _ => rfl⟩
  | jsr => exact .inr ⟨_, .call _ rfl rfl, rfl, fun _ => rfl⟩
  | hlt => exact .inr ⟨_, .halt rfl rfl, rfl, fun _ => rfl⟩
  | int | iag | ias | iap | iaq | hwn | hwq | hwi => exact .inr ⟨_, .inert rfl rfl, rfl, fun _ => rfl⟩

/-- JSR has no b operand. -/
theorem isCall_of_bOperand {i : Instr} {b : Operand} (h : i.bOperand = some b) : i.isCall = false := by
  cases i with
  | jsr => cases h
  | _ => rfl

/-- HLT has no b operand. -/
theorem isHalt_of_bOperand {i : Instr} {b : Operand} (h : i.bOperand = some b) : i.isHalt = false := by
  cases i with
  | hlt => cases h
  | _ => rfl

/-- No extended instruction writes EX (R200). -/
theorem writesEx_of_bOperand_none {i : Instr} (h : i.bOperand = none) : i.writesEx = false := by
  cases i with
  | add | sub | mul | div | shl | shr => cases h
  | _ => rfl

theorem isHalt_iff {i : Instr} : i.isHalt = true ↔ ∃ a, i = .hlt a := by
  constructor
  · intro h
    cases i with
    | hlt a => exact ⟨a, rfl⟩
    | _ => cases h
  · rintro ⟨a, rfl⟩
    rfl

/-! The state that resolving the operands leaves (R100) -/

theorem State.afterOperands_some {i : Instr} {b : Operand} (s : State) (h : i.bOperand = some b) :
    s.afterOperands i = s.advance (i.aOperand.words + b.words) (i.aOperand.spMove .a + b.spMove .b) := by
  simp only [State.afterOperands, h]

theorem State.afterOperands_none {i : Instr} (s : State) (h : i.bOperand = none) :
    s.afterOperands i = s.advance i.aOperand.words (i.aOperand.spMove .a) := by
  simp only [State.afterOperands, h]

/-- Resolving the operands moves PC and SP and nothing else. -/
theorem State.afterOperands_eq_advance (s : State) (i : Instr) : ∃ n d, s.afterOperands i = s.advance n d := by
  cases h : i.bOperand with
  | some b => exact ⟨_, _, s.afterOperands_some h⟩
  | none => exact ⟨_, _, s.afterOperands_none h⟩

@[simp] theorem State.afterOperands_reg (s : State) (i : Instr) (r : Reg) : (s.afterOperands i).reg r = s.reg r := by
  obtain ⟨n, d, e⟩ := s.afterOperands_eq_advance i
  rw [e, State.advance_reg]

@[simp] theorem State.afterOperands_ex (s : State) (i : Instr) : (s.afterOperands i).cpu.ex = s.cpu.ex := by
  obtain ⟨n, d, e⟩ := s.afterOperands_eq_advance i
  rw [e, State.advance_ex]

@[simp] theorem State.afterOperands_skip (s : State) (i : Instr) : (s.afterOperands i).cpu.skip = s.cpu.skip := by
  obtain ⟨n, d, e⟩ := s.afterOperands_eq_advance i
  rw [e, State.advance_skip]

@[simp] theorem State.afterOperands_status (s : State) (i : Instr) :
    (s.afterOperands i).cpu.status = s.cpu.status := by
  obtain ⟨n, d, e⟩ := s.afterOperands_eq_advance i
  rw [e, State.advance_status]

@[simp] theorem State.afterOperands_mem (s : State) (i : Instr) : (s.afterOperands i).mem = s.mem := by
  obtain ⟨n, d, e⟩ := s.afterOperands_eq_advance i
  rw [e, State.advance_mem]

/-- Every operand form but PUSH and POP leaves SP where it is (R119). -/
theorem spMove_eq_zero {o : Operand} (h : o ≠ .pushPop) (p : Position) : o.spMove p = 0 := by
  cases o with
  | pushPop => exact absurd rfl h
  | _ => rfl

theorem State.afterOperands_sp {i : Instr} (s : State) (ha : i.aOperand ≠ .pushPop)
    (hb : i.bOperand ≠ some .pushPop) : (s.afterOperands i).cpu.sp = s.cpu.sp := by
  cases h : i.bOperand with
  | none => simp [s.afterOperands_none h, spMove_eq_zero ha]
  | some b =>
    have hb' : b ≠ .pushPop := fun e => hb (e ▸ h)
    simp [s.afterOperands_some h, spMove_eq_zero ha, spMove_eq_zero hb']

/-! What a Location that names a register says of the operand it came from -/

/-- The operand form that names a register Location; a cell or a Literal can come from several. -/
def Location.form : Location → Option Operand
  | .register r => some (.reg r)
  | .stackPointer => some .sp
  | .programCounter => some .pc
  | .overflow => some .ex
  | .memoryCell _ | .stackPush _ | .stackPop _ | .stackPeek _ | .literal _ => none

/-- Only the form that names it resolves to a register Location (R102). -/
theorem resolve_form {o f : Operand} {p : Position} {s s1 : State} {l : Location}
    (h : resolve o p s = (some l, s1)) (hf : l.form = some f) : o = f := by
  cases o with
  | pushPop => cases p <;> cases h <;> cases hf
  | inline k => cases p <;> cases h; cases hf
  | reg | sp | pc | ex => cases h; cases hf; rfl
  | ind | indNext | peek | pick | memNext | litNext => cases h; cases hf

theorem resolveBoth_form_b {b a f : Operand} {s s1 : State} {lb la : Location}
    (h : resolveBoth b a s = .resolved (lb, la) s1) (hf : lb.form = some f) : b = f := by
  obtain ⟨s0, -, hb⟩ := resolveBoth_eq_resolved h
  exact resolve_form hb hf

theorem resolveBoth_form_a {b a f : Operand} {s s1 : State} {lb la : Location}
    (h : resolveBoth b a s = .resolved (lb, la) s1) (hf : la.form = some f) : a = f := by
  obtain ⟨s0, ha, -⟩ := resolveBoth_eq_resolved h
  exact resolve_form ha hf

/-! What `exec` can do -/

/-- The next states that `exec i s` can have: a fault on an illegal b operand, a skipped instruction, or one of the five
things that a handler does to the state that resolution left. A store that does not write EX last (R152) puts back the Word
that the write to b left there. -/
inductive ExecEffect (i : Instr) (s : State) : State → Prop where
  | illegal (b : Operand) (hb : i.bOperand = some b) (hl : b.legalIn .b = false) :
      ExecEffect i s (illegalOperand b .b (s.advance i.aOperand.words (i.aOperand.spMove .a)))
  | skipped (hs : s.cpu.skip = true) : ExecEffect i s ((s.afterOperands i).setSkip false)
  | inert (hs : s.cpu.skip = false) (noCall : i.isCall = false) (noHalt : i.isHalt = false) :
      ExecEffect i s (s.afterOperands i)
  | condition (v : Bool) (hs : s.cpu.skip = false) (noCall : i.isCall = false) (noHalt : i.isHalt = false)
      (isConditional : i.isConditional = true) : ExecEffect i s ((s.afterOperands i).setSkip v)
  | store (l : Location) (v e : Word) (hs : s.cpu.skip = false) (noCall : i.isCall = false) (noHalt : i.isHalt = false)
      (writesB : i.writesB = true) (hl : ∀ f, l.form = some f → i.bOperand = some f)
      (he : i.writesEx = true ∨ e = ((s.afterOperands i).setLoc l v).cpu.ex) :
      ExecEffect i s (((s.afterOperands i).setLoc l v).setEx e)
  | call (v w : Word) (hs : s.cpu.skip = false) (isCall : i.isCall = true) (noHalt : i.isHalt = false) :
      ExecEffect i s (((s.afterOperands i).push v).setPc w)
  | halt (hs : s.cpu.skip = false) (noCall : i.isCall = false) (isHalt : i.isHalt = true) :
      ExecEffect i s ((s.afterOperands i).setStatus .halted)

theorem OrdinaryMeaning.effect {i : Instr} {h : Location → Location → State → State} (hh : OrdinaryMeaning i h)
    {s : State} {b : Operand} {lb la : Location} (hs : s.cpu.skip = false) (hb : i.bOperand = some b)
    (hr : resolveBoth b i.aOperand s = .resolved (lb, la) (s.afterOperands i)) :
    ExecEffect i s (h lb la (s.afterOperands i)) := by
  have hc := isCall_of_bOperand hb
  have hn := isHalt_of_bOperand hb
  have hl : ∀ f, lb.form = some f → i.bOperand = some f := fun f hf => hb.trans (congrArg some (resolveBoth_form_b hr hf))
  cases hh with
  | store value hw => exact .store lb _ _ hs hc hn hw hl (.inr rfl)
  | storeEx value ex hw hx => exact .store lb _ _ hs hc hn hw hl (.inl hx)
  | condition holds hi => exact .condition _ hs hc hn hi
  | inert => exact .inert hs hc hn

theorem ExtendedMeaning.effect {i : Instr} {h : Location → State → State} (hh : ExtendedMeaning i h) {s : State}
    (la : Location) (hs : s.cpu.skip = false) : ExecEffect i s (h la (s.afterOperands i)) := by
  cases hh with
  | call order hc hn => cases order <;> exact .call _ _ hs hc hn
  | halt hc hi => exact .halt hs hc hi
  | inert hc hn => exact .inert hs hc hn

/-- Every next state of `exec` is one of these: the operands are resolved, then the instruction is skipped or its handler
runs. -/
theorem exec_effect {i : Instr} {s t : State} (h : exec i s = .next t) : ExecEffect i s t := by
  rcases exec_meaning i with ⟨b, f, hf, hb, e⟩ | ⟨f, hf, hb, e⟩
  · cases (e s).symm.trans h
    cases hl : b.legalIn .b with
    | false => exact ordinary_illegal s i.aOperand hl f ▸ .illegal b hb hl
    | true =>
      obtain ⟨lb, la, s1, hs1, hr, ho⟩ := ordinary_legal s i.aOperand hl
      cases hs1.trans (s.afterOperands_some hb).symm
      rw [ho]
      cases hs : s.cpu.skip with
      | true => exact .skipped hs
      | false => exact hf.effect hs hb hr
  · cases (e s).symm.trans h
    obtain ⟨la, s1, hs1, -, ho⟩ := extended_eq s i.aOperand
    cases hs1.trans (s.afterOperands_none hb).symm
    rw [ho]
    cases hs : s.cpu.skip with
    | true => exact .skipped hs
    | false => exact hf.effect la hs

end Sys2Proof.Machine
end

section
/-! SUPPORT. What an instruction changes of the general registers, EX and SP: of the effects of `exec` only the store writes
the Location of b, and it is a register only where b names it. -/

namespace Sys2Proof.Machine

@[simp] theorem illegalOperand_reg (o : Operand) (p : Position) (s : State) (r : Reg) :
    (illegalOperand o p s).reg r = s.reg r := rfl

@[simp] theorem illegalOperand_ex (o : Operand) (p : Position) (s : State) :
    (illegalOperand o p s).cpu.ex = s.cpu.ex := rfl

/-- Settles O43, by the effects of `exec`: only a store to the register's own Location changes it. -/
theorem generalRegistersChangeOnlyAsDestination : Obligations.GeneralRegistersChangeOnlyAsDestination := by
  intro i s t r h hne
  cases exec_effect h with
  | store l v e hs _ _ hw hl =>
    have hreg : l = .register r := by
      by_contra hn
      exact hne (by simp [hn])
    exact ⟨hs, hw, hl (.reg r) (hreg ▸ rfl)⟩
  | illegal | skipped | inert | condition | call | halt => simp at hne

/-- Settles O40, by the effects of `exec`: only a store changes EX, as its last action or because its Location is EX. -/
theorem onlyExWritersChangeEx : Obligations.OnlyExWritersChangeEx := by
  intro i s t h hne
  cases exec_effect h with
  | store l v e hs _ _ hw hl he =>
    refine ⟨hs, he.imp_right fun he => ⟨hw, ?_⟩⟩
    have hex : l = .overflow := by
      by_contra hn
      exact hne (by simp [he, hn])
    exact hl .ex (hex ▸ rfl)
  | illegal | skipped | inert | condition | call | halt => simp at hne

/-- Settles O42, by the effects of `exec`: past the operands only JSR's push and a store to the SP Location move SP. -/
theorem spChangesOnlyByItsOwnOperations : Obligations.SpChangesOnlyByItsOwnOperations := by
  intro i s t hlegal h
  refine ⟨fun hn => ?_, s.afterOperands_sp⟩
  cases exec_effect h with
  | illegal b hb hl => simp [hb, hl] at hlegal
  | skipped hs => simp [hs]
  | store l v e hs hc _ hw hl =>
    have hsp : l ≠ .stackPointer := fun e => hn ⟨hs, hw, hl .sp (e ▸ rfl)⟩
    simp [hc, hsp]
  | inert hs hc => simp [hc]
  | condition v hs hc => simp [hc]
  | call v w hs hc => simp [hs, hc]
  | halt hs hc => simp [hc]

end Sys2Proof.Machine
end

section
/-! SUPPORT. What a step of a Running core does to the status, the skip latch and the invariant. -/

namespace Sys2Proof.Machine

/-! What a word that names no operation decodes to (R81, R84) -/

theorem decode_invalidOrdinary {c : Config} {w : Word} {op : BitVec 5} {b a : Operand}
    (h : decode c w = .invalidOrdinary op b a) : op ∈ unnamedOpcodes ∧ b.legalIn .b = true := by
  have unnamed : ∀ n : BitVec 5, n ≠ 0 → opcodeMap.lookup n = none → n ∈ unnamedOpcodes := by decide
  unfold decode decodeWith at h
  split at h
  · split at h <;> cases h
  · next h0 =>
    split at h
    · cases h
    · next hl => cases h; exact ⟨unnamed _ h0 hl, legalIn_ofCode _⟩

theorem decode_invalidExtended {c : Config} {w : Word} {d : BitVec 5} {a : Operand}
    (h : decode c w = .invalidExtended d a) : unnamedDiscriminant c d := by
  have free : ∀ n : BitVec 5, extMap.lookup n = none → isFreeDiscriminant n = true := by decide
  unfold decode decodeWith at h
  split at h
  · split at h
    · cases h
    · next hl =>
      cases h
      unfold extLookup at hl
      split at hl
      · cases hl
      · next hn =>
        split at hl
        · cases hl
        · next hc => exact ⟨free _ hn, hc⟩
  · split at h <;> cases h

/-- The fault that a word with no operation takes (R281): its operands resolved, InvalidOpcode with the word's own code. -/
def InvalidWordFault (s t : State) : Prop :=
  ∃ (n : Nat) (m : Word) (d : BitVec 5), (d ∈ unnamedOpcodes ∨ unnamedDiscriminant s.config d) ∧
    t = (s.afterFetch.advance n m).raiseFault .invalidOpcode (d.setWidth 6) none

/-- While the status is not Running a step changes nothing (R260). -/
theorem step_of_not_running {s : State} (h : s.cpu.status ≠ .running) : step s = .next s := by
  rcases step_cases s with ⟨-, e⟩ | ⟨hr, -⟩ | ⟨hr, -⟩ | ⟨hr, -⟩
  · exact e
  all_goals exact absurd hr h

/-- What a step of a Running core does: it runs the decoded instruction, whose b operand is legal, or takes the fault of a
word that names no operation. -/
theorem step_effect {s t : State} (hr : s.cpu.status = .running) (h : step s = .next t) :
    (∃ i, decode s.config (s.memRead s.cpu.pc) = .instr i ∧ ExecEffect i s.afterFetch t) ∨
    ((∀ i, decode s.config (s.memRead s.cpu.pc) ≠ .instr i) ∧ InvalidWordFault s t) := by
  rcases step_cases s with ⟨hn, -⟩ | ⟨-, i, hd, e⟩ | ⟨-, op, b, a, hd, e⟩ | ⟨-, d, a, hd, e⟩
  · exact absurd hr hn
  · exact .inl ⟨i, hd, exec_effect (e.symm.trans h)⟩
  · cases e.symm.trans h
    obtain ⟨hop, hb⟩ := decode_invalidOrdinary hd
    refine .inr ⟨fun i hi => ?_, _, _, op, .inl hop, invalidOrdinary_legal _ op a hb⟩
    cases hd.symm.trans hi
  · cases e.symm.trans h
    refine .inr ⟨fun i hi => ?_, _, _, d, .inr (decode_invalidExtended hd), invalidExtended_eq _ d a⟩
    cases hd.symm.trans hi

/-- The status after an instruction whose b operand is legal: Halted where HLT was executed, else as it was (R30, R202). -/
theorem ExecEffect.status {i : Instr} {s t : State} (h : ExecEffect i s t)
    (hlegal : i.bOperand.all (fun b => b.legalIn .b) = true) :
    t.cpu.status = if s.cpu.skip = false ∧ i.isHalt = true then .halted else s.cpu.status := by
  cases h with
  | illegal b hb hl => simp [hb, hl] at hlegal
  | skipped hs => simp [hs]
  | inert hs _ hn => simp [hn]
  | condition v hs _ hn => simp [hn]
  | store l v e hs _ hn => simp [hn]
  | call v w hs _ hn => simp [hn]
  | halt hs _ hi => simp [hs, hi]

/-- The skip latch after an instruction: clear, unless a conditional was executed (R29, R187, R258). -/
theorem ExecEffect.skip {i : Instr} {s t : State} (h : ExecEffect i s t)
    (hlegal : i.bOperand.all (fun b => b.legalIn .b) = true) :
    t.cpu.skip = false ∨ (s.cpu.skip = false ∧ i.isConditional = true) := by
  cases h with
  | illegal b hb hl => simp [hb, hl] at hlegal
  | skipped => exact .inl rfl
  | condition v hs _ _ hc => exact .inr ⟨hs, hc⟩
  | inert hs | store l v e hs | call v w hs | halt hs => left; simp [hs]

/-- No instruction breaks the canonical form of the memory. -/
theorem ExecEffect.mem_wf {i : Instr} {s t : State} (h : ExecEffect i s t) (hm : s.mem.wf = true) : t.mem.wf = true := by
  have hm1 : (s.afterOperands i).mem.wf = true := by rwa [State.afterOperands_mem]
  cases h with
  | illegal => exact hm
  | store l v e => exact State.setLoc_wf l v hm1
  | call v w => exact Memory.write_wf _ v hm1
  | skipped | inert | condition | halt => exact hm1

/-- The fault of a word that names no operation is one that R281 describes. -/
theorem InvalidWordFault.inv {s t : State} (h : InvalidWordFault s t) (hm : s.mem.wf = true) : t.Inv := by
  obtain ⟨n, m, d, hd, rfl⟩ := h
  refine ⟨hm, fun r hr => ?_⟩
  cases hr
  exact ⟨rfl, rfl, rfl, d, rfl, hd⟩

/-- Settles O3, by the cases of a step: a core that is not Running keeps its state, an instruction leaves a Running or Halted
core, and a word that names no operation leaves the record that the invariant asks for. -/
theorem stepKeepsTheInvariant : Obligations.StepKeepsTheInvariant := by
  intro s t hi h
  by_cases hr : s.cpu.status = .running
  · rcases step_effect hr h with ⟨i, hd, he⟩ | ⟨-, hf⟩
    · refine ⟨he.mem_wf hi.mem, fun r hrec => ?_⟩
      rw [he.status (decode_legal hd)] at hrec
      simp only [State.afterFetch_eq, State.setPc_status, hr] at hrec
      split at hrec <;> cases hrec
    · exact hf.inv hi.mem
  · cases (step_of_not_running hr).symm.trans h
    exact hi

/-- Settles O34: what `ExecEffect.skip` says of the instruction that the step runs. -/
theorem skipLatchIsOneShot : Obligations.SkipLatchIsOneShot := by
  intro s t i hr hd h
  rcases step_effect hr h with ⟨j, hj, he⟩ | ⟨hn, -⟩
  · cases hd.symm.trans hj
    rcases he.skip (decode_legal hd) with ht | ⟨hs, hc⟩
    · simp [ht]
    · simp only [State.afterFetch_eq, State.setPc_skip] at hs
      simp [hs, hc]
  · exact absurd hd (hn i)

/-- Settles O35: `ExecEffect.status` gives the status where the word decodes to an instruction, and the status is Faulted where
it does not. -/
theorem statusChangesOnlyByHltAndInvalidWords : Obligations.StatusChangesOnlyByHltAndInvalidWords := by
  intro s t hr h
  rcases step_effect hr h with ⟨i, hd, he⟩ | ⟨hn, n, m, d, -, rfl⟩
  · have hst := he.status (decode_legal hd)
    simp only [State.afterFetch_eq, State.setPc_status, State.setPc_skip, hr] at hst
    simp only [hd, Decoded.instr.injEq, ← isHalt_iff, State.report, hst]
    cases s.cpu.skip <;> cases hh : i.isHalt <;> simp [hh]
  · simp [hn, State.report]

end Sys2Proof.Machine
end

section
/-! SUPPORT. No handler reads EX but through a Location: an instruction that names no EX operand commutes with setting EX. -/

namespace Sys2Proof.Machine

/-- Resolving operands neither reads nor writes EX (R100). -/
theorem resolve_setEx (o : Operand) (p : Position) (s : State) (v : Word) :
    resolve o p (s.setEx v) = ((resolve o p s).1, (resolve o p s).2.setEx v) := by
  cases o with
  | pushPop | inline => cases p <;> rfl
  | _ => rfl

theorem resolveBoth_setEx {b a : Operand} {s s1 : State} {lb la : Location}
    (h : resolveBoth b a s = .resolved (lb, la) s1) (v : Word) :
    resolveBoth b a (s.setEx v) = .resolved (lb, la) (s1.setEx v) := by
  obtain ⟨s0, ha, hb⟩ := resolveBoth_eq_resolved h
  simp only [resolveBoth, resolve_setEx, ha, hb]

theorem resolveA_setEx {a : Operand} {s s1 : State} {la : Location} (h : resolveA a s = .resolved la s1) (v : Word) :
    resolveA a (s.setEx v) = .resolved la (s1.setEx v) := by
  simp only [resolveA, resolve_setEx, resolveA_eq_resolved h]

@[simp] theorem State.setEx_setEx (s : State) (v w : Word) : (s.setEx v).setEx w = s.setEx w := rfl

/-- Every Location but EX reads the same whatever EX holds. -/
theorem State.getLoc_setEx {l : Location} (h : l ≠ .overflow) (s : State) (v : Word) :
    (s.setEx v).getLoc l = s.getLoc l := by
  cases l with
  | overflow => exact absurd rfl h
  | _ => rfl

/-- Writing any Location but EX keeps what EX holds. -/
theorem State.setLoc_setEx {l : Location} (h : l ≠ .overflow) (s : State) (v w : Word) :
    (s.setEx v).setLoc l w = (s.setLoc l w).setEx v := by
  cases l with
  | overflow => exact absurd rfl h
  | _ => rfl

/-- The handler of an ordinary instruction commutes with setting EX, and where it writes EX last it leaves nothing of the Word
that was there. -/
theorem OrdinaryMeaning.setEx {i : Instr} {h : Location → Location → State → State} (hh : OrdinaryMeaning i h)
    {lb la : Location} (hb : lb ≠ .overflow) (ha : la ≠ .overflow) (s : State) (v : Word) :
    ∃ e, h lb la (s.setEx v) = (h lb la s).setEx e ∧ (i.writesEx = true → (h lb la s).setEx e = h lb la s) := by
  cases hh with
  | store value _ hx =>
    refine ⟨v, ?_, by simp [hx]⟩
    simp only [arithHandler, State.getLoc_setEx ha, State.getLoc_setEx hb, State.setLoc_setEx hb]
  | storeEx value ex =>
    refine ⟨ex (s.getLoc lb) (s.getLoc la), ?_, fun _ => rfl⟩
    simp only [arithExHandler, State.getLoc_setEx ha, State.getLoc_setEx hb, State.setLoc_setEx hb, State.setEx_setEx]
  | condition holds _ hx =>
    refine ⟨v, ?_, by simp [hx]⟩
    simp only [conditionHandler, State.getLoc_setEx ha, State.getLoc_setEx hb]
    rfl
  | inert hx => exact ⟨v, rfl, by simp [hx]⟩

/-- The handler of an extended instruction commutes with setting EX. -/
theorem ExtendedMeaning.setEx {i : Instr} {h : Location → State → State} (hh : ExtendedMeaning i h)
    {la : Location} (ha : la ≠ .overflow) (s : State) (v : Word) : h la (s.setEx v) = (h la s).setEx v := by
  cases hh with
  | call order =>
    cases order with
    | afterPush => exact congrArg (((s.push s.cpu.pc).setEx v).setPc ·) (State.getLoc_setEx ha (s.push s.cpu.pc) v)
    | beforePush => exact congrArg (((s.push s.cpu.pc).setEx v).setPc ·) (State.getLoc_setEx ha s v)
  | halt => rfl
  | inert => rfl

/-- An instruction that names no EX operand commutes with setting EX, and where it writes EX last, executed on a legal b
operand, it leaves nothing of the Word that was there. -/
theorem exec_setEx {i : Instr} (s : State) (v : Word) (ha : i.aOperand ≠ .ex) (hb : i.bOperand ≠ some .ex) :
    ∃ t e, exec i s = .next t ∧ exec i (s.setEx v) = .next (t.setEx e) ∧
      (s.cpu.skip = false → i.writesEx = true → i.bOperand.all (fun b => b.legalIn .b) = true → t.setEx e = t) := by
  rcases exec_meaning i with ⟨b, h, hh, hi, he⟩ | ⟨h, hh, hi, he⟩
  · rw [he, he]
    cases hl : b.legalIn .b with
    | false =>
      rw [ordinary_illegal s i.aOperand hl, ordinary_illegal (s.setEx v) i.aOperand hl]
      exact ⟨_, v, rfl, rfl, by simp [hi, hl]⟩
    | true =>
      obtain ⟨lb, la, s1, hs1, hr, -⟩ := ordinary_legal s i.aOperand hl
      have hskip : s1.cpu.skip = s.cpu.skip := by rw [hs1, State.advance_skip]
      have hlb : lb ≠ .overflow := fun e => hb (hi.trans (congrArg some (resolveBoth_form_b hr (e ▸ rfl))))
      have hla : la ≠ .overflow := fun e => ha (resolveBoth_form_a hr (e ▸ rfl))
      obtain ⟨e, hse, hlast⟩ := hh.setEx hlb hla s1 v
      simp only [ordinary, hr, resolveBoth_setEx hr, State.setEx_skip, hskip]
      cases s.cpu.skip with
      | true => exact ⟨_, v, rfl, rfl, by simp⟩
      | false => exact ⟨_, e, rfl, congrArg _ hse, fun _ hx _ => hlast hx⟩
  · rw [he, he]
    obtain ⟨la, s1, hs1, hr, -⟩ := extended_eq s i.aOperand
    have hskip : s1.cpu.skip = s.cpu.skip := by rw [hs1, State.advance_skip]
    have hla : la ≠ .overflow := fun e => ha (resolve_form (resolveA_eq_resolved hr) (e ▸ rfl))
    have hx : i.writesEx = false := writesEx_of_bOperand_none hi
    simp only [extended, hr, resolveA_setEx hr, State.setEx_skip, hskip]
    cases s.cpu.skip with
    | true => exact ⟨_, v, rfl, rfl, by simp [hx]⟩
    | false => exact ⟨_, v, rfl, congrArg _ (hh.setEx hla s1 v), by simp [hx]⟩

/-- Settles O41: setting EX to `v` is the other state of the statement, and `exec_setEx` gives the two next states. -/
theorem noHandlerReadsExImplicitly : Obligations.NoHandlerReadsExImplicitly := by
  intro i s v ha hb
  obtain ⟨t, e, ht, hu, hlast⟩ := exec_setEx s v ha hb
  exact ⟨t, t.setEx e, ht, hu, rfl, hlast⟩

end Sys2Proof.Machine
end

section
/-! SUPPORT. The reset state, loading a program, and a core that is not Running. -/

namespace Sys2Proof.Machine

/-- Settles O1 (R37): the table of the reset state, field by field, and the memory that `clear()` leaves. -/
theorem resetStateHoldsTheResetValues : Obligations.ResetStateHoldsTheResetValues := by
  have hreg : ∀ r, State.reset.reg r = 0 := fun r => by cases r <;> rfl
  exact ⟨hreg, rfl, rfl, rfl, rfl, rfl, rfl, Memory.zero_read, rfl⟩

/-- Settles O2: the zero memory is in canonical form, and a Running core holds no fault record. -/
theorem resetStateMeetsTheInvariant : Obligations.ResetStateMeetsTheInvariant where
  mem := Memory.zero_wf
  fault := fun _ h => nomatch h

/-- Settles O11: `step_of_not_running`, and the report of each status. -/
theorem quiescentCoreIgnoresSteps : Obligations.QuiescentCoreIgnoresSteps := by
  refine ⟨fun s h => ⟨step_of_not_running (by simp [h]), ?_⟩, fun s r h => ⟨step_of_not_running (by simp [h]), ?_⟩⟩
  · simp only [State.report, h]
  · simp only [State.report, h]

theorem Memory.writeFrom_wf {m : Memory} (h : m.wf = true) (addr : Word) (words : List Word) :
    (m.writeFrom addr words).wf = true := by
  induction words generalizing m addr with
  | nil => exact h
  | cons w rest ih => exact ih (Memory.write_wf addr w h) (addr + 1)

/-- What every read gives after Words are written from address `k` on, none of them past the last address (R270). -/
theorem Memory.read_writeFrom {m : Memory} (h : m.wf = true) (k : Nat) (words : List Word)
    (hk : k + words.length ≤ 65536) (x : Word) :
    (m.writeFrom (BitVec.ofNat 16 k) words).read x =
      if k ≤ x.toNat then (words[x.toNat - k]?).getD (m.read x) else m.read x := by
  induction words generalizing m k with
  | nil => simp [Memory.writeFrom]
  | cons w rest ih =>
    simp only [List.length_cons] at hk
    have hx : x = BitVec.ofNat 16 k ↔ x.toNat = k := by
      rw [← BitVec.toNat_inj, BitVec.toNat_ofNat, Nat.mod_eq_of_lt (by omega)]
    have hnext : BitVec.ofNat 16 k + 1 = BitVec.ofNat 16 (k + 1) := (BitVec.ofNat_add k 1).symm
    rw [Memory.writeFrom, hnext, ih (Memory.write_wf _ _ h) (k + 1) (by omega), Memory.read_write h]
    simp only [hx]
    rcases Nat.lt_trichotomy x.toNat k with hlt | heq | hgt
    · simp [show ¬ k + 1 ≤ x.toNat by omega, show ¬ x.toNat = k by omega, show ¬ k ≤ x.toNat by omega]
    · simp [heq]
    · have hsub : x.toNat - k = (x.toNat - (k + 1)) + 1 := by omega
      simp [show k + 1 ≤ x.toNat by omega, show ¬ x.toNat = k by omega, show k ≤ x.toNat by omega, hsub]

/-- Settles O48: reset() and clear() leave nothing of the state but its parameters, and the Words are then written over the
zero memory. -/
theorem bootReachesTheSameStateFromAnyPowerOnState : Obligations.BootReachesTheSameStateFromAnyPowerOnState := by
  intro s words hlen
  refine ⟨rfl, _, if_pos hlen, rfl, Memory.writeFrom_wf Memory.zero_wf 0 words, fun x => ?_⟩
  have hread : (Memory.zero.writeFrom 0 words).read x = (words[x.toNat]?).getD 0 := by
    simpa using Memory.read_writeFrom Memory.zero_wf 0 words (by omega) x
  exact hread

end Sys2Proof.Machine
end

section
/-! SUPPORT. What an instruction changes of memory: only the store to b's Location and JSR's push write a cell (R60). -/

namespace Sys2Proof.Machine

/-! The cell that an instruction stores to -/

theorem State.storeCell_of_writesB {i : Instr} {b : Operand} {s s1 : State} {lb la : Location}
    (hb : i.bOperand = some b) (hw : i.writesB = true) (hr : resolveBoth b i.aOperand s = .resolved (lb, la) s1) :
    s.storeCell i = lb.cell := by
  simp [State.storeCell, isCall_of_bOperand hb, State.target, hb, hw, hr]

theorem State.storeCell_of_isCall {i : Instr} (s : State) (hc : i.isCall = true) :
    s.storeCell i = some ((s.afterOperands i).cpu.sp - 1) := if_pos hc

/-! What the handlers leave of memory -/

@[simp] theorem State.afterOperands_memRead (s : State) (i : Instr) (x : Word) :
    (s.afterOperands i).memRead x = s.memRead x := congrArg (·.read x) (s.afterOperands_mem i)

/-- The handler of an ordinary instruction keeps every cell but b's own, which it writes only where the instruction writes
b. -/
theorem OrdinaryMeaning.memRead {i : Instr} {h : Location → Location → State → State} (hh : OrdinaryMeaning i h)
    {lb : Location} (la : Location) {s : State} (hm : s.mem.wf = true) {x : Word}
    (hx : i.writesB = true → lb.cell ≠ some x) : (h lb la s).memRead x = s.memRead x := by
  cases hh with
  | store value hw => simp [arithHandler, State.setLoc_memRead _ _ hm, hx hw]
  | storeEx value ex hw => simp [arithExHandler, State.setLoc_memRead _ _ hm, hx hw]
  | condition | inert => rfl

/-- The handler of an extended instruction keeps every cell but the one under SP, which only JSR's writes. -/
theorem ExtendedMeaning.memRead {i : Instr} {h : Location → State → State} (hh : ExtendedMeaning i h) (la : Location)
    {s : State} (hm : s.mem.wf = true) {x : Word} (hx : i.isCall = true → s.cpu.sp - 1 ≠ x) :
    (h la s).memRead x = s.memRead x := by
  cases hh with
  | call order hc =>
    have hpush : (s.push s.cpu.pc).memRead x = s.memRead x :=
      (State.memRead_memWrite (s := s.setSp (s.cpu.sp - 1)) hm _ _ x).trans (if_neg fun e => hx hc e.symm)
    cases order <;> exact hpush
  | halt | inert => rfl

/-- A skipped instruction keeps every cell, and an executed one every cell but the one it stores to. -/
theorem exec_memRead {i : Instr} {s t : State} (hm : s.mem.wf = true) (h : exec i s = .next t) {x : Word}
    (hx : s.cpu.skip = false → s.storeCell i ≠ some x) : t.memRead x = s.memRead x := by
  have hm1 : (s.afterOperands i).mem.wf = true := by rwa [State.afterOperands_mem]
  rcases exec_meaning i with ⟨b, f, hf, hb, e⟩ | ⟨f, hf, hb, e⟩
  · cases (e s).symm.trans h
    cases hl : b.legalIn .b with
    | false =>
      rw [ordinary_illegal s i.aOperand hl]
      rfl
    | true =>
      obtain ⟨lb, la, s1, hs1, hr, ho⟩ := ordinary_legal s i.aOperand hl
      cases hs1.trans (s.afterOperands_some hb).symm
      rw [ho, ← State.afterOperands_memRead s i]
      cases hs : s.cpu.skip with
      | true => rfl
      | false => exact hf.memRead la hm1 fun hw => State.storeCell_of_writesB hb hw hr ▸ hx hs
  · cases (e s).symm.trans h
    obtain ⟨la, s1, hs1, -, ho⟩ := extended_eq s i.aOperand
    cases hs1.trans (s.afterOperands_none hb).symm
    rw [ho, ← State.afterOperands_memRead s i]
    cases hs : s.cpu.skip with
    | true => rfl
    | false => exact hf.memRead la hm1 fun hc => by simpa [s.storeCell_of_isCall hc] using hx hs

/-- Settles O44: the first clause gives `exec_memRead` what it asks of an executed instruction; under the second none is
executed. -/
theorem memoryChangesOnlyAtTheStoreCell : Obligations.MemoryChangesOnlyAtTheStoreCell := by
  intro i s t hm h
  refine ⟨fun x hx => exec_memRead hm h fun _ => hx, fun hs x => exec_memRead hm h fun hn => ?_⟩
  cases hs.symm.trans hn

end Sys2Proof.Machine
end

section
/-! SUPPORT. A store over the instruction stream (R66), and a step of one of several cores (R273). -/

namespace Sys2Proof.Machine

/-- `SET [n], long v` executed (R113, R114, R141): the first operand word is stored at the address that the second one
gives, and PC is past both. -/
theorem exec_set_memNext_litNext {s : State} (hs : s.cpu.skip = false) :
    exec (.set .memNext .litNext) s =
      .next ((s.setPc (s.cpu.pc + 1 + 1)).memWrite (s.memRead (s.cpu.pc + 1)) (s.memRead s.cpu.pc)) := by
  simp [exec, execSet, ordinary, resolveBoth, resolve, hs, moveHandler, State.setLoc_memoryCell]

/-- Settles O51: the cell that the store writes is the one at the new PC. -/
theorem storedWordIsFetchedByTheNextStep : Obligations.StoredWordIsFetchedByTheNextStep := by
  intro s v hs hm hv hn
  have hpc : s.cpu.pc + 1 + 1 = s.cpu.pc + 2 := BitVec.add_assoc ..
  refine ⟨_, exec_set_memNext_litNext hs, hpc, ?_⟩
  rw [hv, hn, hpc]
  exact (State.memRead_memWrite (s := s.setPc (s.cpu.pc + 2)) hm _ v _).trans (if_pos rfl)

/-- A core's view is its own registers, latch and status with the system's memory and parameters (R34). -/
theorem System.view_eq_some_iff {y : System} {k : Nat} {s : State} :
    y.view k = some s ↔ y.cores[k]? = some s.cpu ∧ y.mem = s.mem ∧ y.config = s.config := by
  obtain ⟨cpu, mem, config⟩ := s
  simp [System.view]

/-- What a step of core `k` leaves: the core's own part of its next state, and its memory for all. -/
theorem System.stepCore_eq {y : System} {k : Nat} {s t : State} (hv : y.view k = some s) (h : step s = .next t) :
    y.stepCore k = .next { y with cores := y.cores.set k t.cpu, mem := t.mem } := by
  simp only [System.stepCore, hv, h]

/-- Settles O55: only entry `k` of the cores is written, the memory is the next state's, and the parameters are those that
the step kept. -/
theorem coresShareOnlyTheMemory : Obligations.CoresShareOnlyTheMemory := by
  intro y k s t hv h
  obtain ⟨hcpu, -, hconfig⟩ := System.view_eq_some_iff.mp hv
  have hk : k < y.cores.length := (List.getElem?_eq_some_iff.mp hcpu).1
  refine ⟨_, System.stepCore_eq hv h, System.view_eq_some_iff.mpr ⟨?_, rfl, ?_⟩, fun j hj => ?_, fun j u hu => ?_⟩
  · exact List.getElem?_set_self hk
  · exact hconfig.trans (noStepChangesTheParameters s t h).symm
  · exact List.getElem?_set_ne hj.symm
  · exact (System.view_eq_some_iff.mp hu).2.1.symm

end Sys2Proof.Machine
end

section
/-! SUPPORT. The round trips of the encoder and the decoder under the assignments of R80 and R82, and the length that the
operand codes of a word give (R88). -/

namespace Sys2Proof

/-- Under the assignments of R80 and R82 an instruction's word is the word that decodes to it (R85, R87). -/
theorem encode_eq_some_iff {c : Config} {i : Instr} {w : Word} : encode c i = some w ↔ decode c w = .instr i :=
  everyOpcodeAssignmentEncodesAsItDecodes opcodeMap extMap c i w opcodeMap_distinct (by decide) (by decide)
    extMap_distinct (by decide) fun d h => (free_iff_unused d).mp (hltCode_free h)

/-- An ordinary instruction is well-formed where its b operand is legal in b position (R74). -/
@[simp] theorem wellFormed_ordinary (c : Config) (o : OrdinaryOp) (b a : Operand) :
    (o.instr b a).wellFormed c = b.legalIn .b := by
  cases o <;> exact Bool.and_true _

/-- An extended instruction that EXT_MAP numbers is always well-formed. -/
@[simp] theorem wellFormed_extended (c : Config) (o : ExtendedOp) (a : Operand) : (o.instr a).wellFormed c = true := by
  cases o <;> rfl

/-- The encoder gives an instruction a word exactly where it is well-formed (R74, R83). -/
theorem encode_isSome (c : Config) (i : Instr) : (encode c i).isSome = i.wellFormed c := by
  rcases instr_cases i with ⟨o, b, a, rfl⟩ | ⟨o, a, rfl⟩ | ⟨a, rfl⟩
  · obtain ⟨n, hn, -⟩ := opcodeMap_numberOf o
    rw [encode, encodeWith_ordinary, hn, wellFormed_ordinary]
    exact (Laws.Encodable.ordinary_isSome n b a).trans (Bool.and_true _)
  · obtain ⟨d, hd, -⟩ := extMap_numberOf o
    rw [encode, encodeWith_extended, hd, wellFormed_extended]
    rfl
  · exact Laws.Encodable.hlt a c

/-- Settles O4: a well-formed instruction has a word, and the word of an instruction decodes to it. -/
theorem decodeOfEncodeIsTheInstruction : Obligations.DecodeOfEncodeIsTheInstruction := by
  intro c i hwf
  obtain ⟨w, hw⟩ := Option.isSome_iff_exists.mp ((encode_isSome c i).trans hwf)
  exact ⟨w, hw, encode_eq_some_iff.mp hw⟩

/-- Settles O5: the word is the instruction's own, and only a well-formed instruction has one. -/
theorem encodeOfDecodeIsTheWord : Obligations.EncodeOfDecodeIsTheWord := by
  intro c w i hd
  have hw : encode c i = some w := encode_eq_some_iff.mpr hd
  exact ⟨(encode_isSome c i).symm.trans (Option.isSome_iff_exists.mpr ⟨w, hw⟩), hw⟩

/-- n(code) of R88: the number of words that an operand code takes from the instruction stream. -/
def codeWords (k : Nat) : Nat := if (0x10 ≤ k ∧ k ≤ 0x17) ∨ k = 0x1A ∨ k = 0x1E ∨ k = 0x1F then 1 else 0

/-- The form that a code names takes the words that R88 gives the code. -/
theorem words_ofCode (code : BitVec 6) : (Operand.ofCode code).words = codeWords code.toNat := by
  revert code; decide

theorem codeWords_le_one (k : Nat) : codeWords k ≤ 1 := by
  unfold codeWords
  split <;> decide

@[simp] theorem words_aForm_pack (op b : BitVec 5) (a : BitVec 6) : (aForm (pack op b a)).words = codeWords a.toNat := by
  rw [aForm, aField_pack, words_ofCode]

@[simp] theorem words_bForm_pack (op b : BitVec 5) (a : BitVec 6) : (bForm (pack op b a)).words = codeWords b.toNat := by
  rw [bForm, bField_pack, words_ofCode, BitVec.toNat_setWidth_of_le (by decide)]

@[simp] theorem length_ordinary (o : OrdinaryOp) (b a : Operand) : (o.instr b a).length = 1 + a.words + b.words := by
  simp [Instr.length]

@[simp] theorem length_extended (o : ExtendedOp) (a : Operand) : (o.instr a).length = 1 + a.words := by
  simp [Instr.length]

@[simp] theorem length_hlt (a : Operand) : (Instr.hlt a).length = 1 + a.words := rfl

/-- The length of the instruction that a word decodes to, by the word's opcode and operand codes (R88). -/
theorem length_of_decode_pack {c : Config} {op b : BitVec 5} {a : BitVec 6} {i : Instr}
    (h : decode c (pack op b a) = .instr i) :
    i.length = if op = 0 then 1 + codeWords a.toNat else 1 + codeWords a.toNat + codeWords b.toNat := by
  rcases decodeWith_eq_instr_iff.mp h with ⟨h0, o, -, rfl⟩ | ⟨h0, o, -, rfl⟩ | ⟨h0, -, -, rfl⟩ <;>
    rw [opField_pack] at h0
  · rw [if_neg h0, length_ordinary, words_aForm_pack, words_bForm_pack]
  · rw [if_pos h0, length_extended, words_aForm_pack]
  · rw [if_pos h0, length_hlt, words_aForm_pack]

/-- Settles O9: the word is its three fields packed, and each operand takes at most one word. -/
theorem instructionLengthFollowsFromTheCodes : Obligations.InstructionLengthFollowsFromTheCodes := by
  intro c op b a i h
  have hlen := length_of_decode_pack h
  have ha : codeWords a.toNat ≤ 1 := codeWords_le_one _
  have hb : codeWords b.toNat ≤ 1 := codeWords_le_one _
  refine ⟨hlen, ?_⟩
  rw [hlen]
  split <;> omega

end Sys2Proof
end

section
/-! SUPPORT. What each opcode and discriminant value decodes to (R80-R84), and the fault of an operand that no word encodes. -/

namespace Sys2Proof.Machine

/-! Values that name an operation (R80, R82, R83) -/

/-- An extended word is its discriminant and its operand code in their fields (R72). -/
theorem pack_zero_op (d : BitVec 5) (a : BitVec 6) :
    pack 0 d a = (d.setWidth 16 <<< 5) ||| (a.setWidth 16 <<< 10) := by
  simp [pack]

/-- A row of R80 is the encoding of its operation. -/
theorem ordinaryEncoding_of_lookup {op : BitVec 5} (o : OrdinaryOp) (h : opcodeMap.lookup op = some o) :
    OrdinaryEncoding op o.instr := by
  have h0 : op ≠ 0 := by
    rintro rfl
    cases h
  exact fun c b a => decode_pack_ordinary c b a h0 h

/-- A row of R82 is the encoding of its operation, whatever P_HLT_OP is. -/
theorem extendedEncoding_of_lookup {d : BitVec 5} (o : ExtendedOp) (h : extMap.lookup d = some o) :
    ExtendedEncoding d o.instr := by
  intro c a
  rw [← pack_zero_op]
  exact decode_pack_extended c d a (extLookup_eq_some_iff.mpr (.inl ⟨o, h, rfl⟩))

/-- P_HLT_OP is the discriminant of HLT (R83). -/
theorem extLookup_hltOp {c : Config} {h : HltOp} (hc : c.hltOp = some h) : extLookup extMap c h.code = some .hlt := by
  have hcode : c.hltCode = some h.code := by simp [Config.hltCode, hc]
  rw [extLookup_free c h.free, if_pos hcode]

/-- Settles O7, row by row of the two tables, and by the parameter for HLT. -/
theorem everyOpcodeValueNamesItsInstruction : Obligations.EveryOpcodeValueNamesItsInstruction := by
  have ord := @ordinaryEncoding_of_lookup
  have ext := @extendedEncoding_of_lookup
  refine ⟨ord .set rfl, ord .add rfl, ord .sub rfl, ord .mul rfl, ord .mli rfl, ord .div rfl, ord .dvi rfl, ord .mod rfl,
    ord .mdi rfl, ord .and rfl, ord .bor rfl, ord .xor rfl, ord .shr rfl, ord .asr rfl, ord .shl rfl, ord .ifb rfl,
    ord .ifc rfl, ord .ife rfl, ord .ifn rfl, ord .ifg rfl, ord .ifl rfl, ord .adx rfl, ord .sbx rfl, ord .sti rfl,
    ord .std rfl, ext .jsr rfl, ext .int rfl, ext .iag rfl, ext .ias rfl, ext .iap rfl, ext .iaq rfl, ext .hwn rfl,
    ext .hwq rfl, ext .hwi rfl, fun c h a hc => ?_⟩
  rw [← pack_zero_op]
  exact decode_pack_extended c h.code a (extLookup_hltOp hc)

/-! Values that name none (R81, R84) -/

/-- The unnamed opcodes are the values, 0 apart, that R80 has no row for (R81). -/
theorem mem_unnamedOpcodes_iff (op : BitVec 5) : op ∈ unnamedOpcodes ↔ op ≠ 0 ∧ opcodeMap.lookup op = none := by
  revert op; decide

/-- The unnamed discriminants are those whose lookup fails (R84). -/
theorem extLookup_eq_none_iff (c : Config) (d : BitVec 5) :
    extLookup extMap c d = none ↔ unnamedDiscriminant c d := by
  cases hf : isFreeDiscriminant d with
  | true => simp [extLookup_free c hf, unnamedDiscriminant, hf]
  | false =>
    have hrow : (extMap.lookup d).isSome = true := by revert d; decide
    obtain ⟨o, ho⟩ := Option.isSome_iff_exists.mp hrow
    simp [extLookup, ho, unnamedDiscriminant, hf]

theorem decode_of_unnamedOpcode (c : Config) {w : Word} (h : opField w ∈ unnamedOpcodes) :
    decode c w = .invalidOrdinary (opField w) (bForm w) (aForm w) := by
  obtain ⟨h0, hl⟩ := (mem_unnamedOpcodes_iff _).mp h
  simp only [decode, decodeWith, h0, if_false, hl, bForm, aForm]

theorem decode_of_unnamedDiscriminant {c : Config} {w : Word} (h0 : opField w = 0)
    (h : unnamedDiscriminant c (bField w)) : decode c w = .invalidExtended (bField w) (aForm w) := by
  simp only [decode, decodeWith, h0, if_true, (extLookup_eq_none_iff c _).mpr h, aForm]

/-- A word whose opcode and discriminant are not unnamed decodes to an instruction (R85). -/
theorem decode_of_named {c : Config} {w : Word} (hop : opField w ∉ unnamedOpcodes)
    (hd : ¬ (opField w = 0 ∧ unnamedDiscriminant c (bField w))) : ∃ i, decode c w = .instr i := by
  rw [← pack_fields w]
  by_cases h0 : opField w = 0
  · have hl : extLookup extMap c (bField w) ≠ none := fun e => hd ⟨h0, (extLookup_eq_none_iff c _).mp e⟩
    obtain ⟨f, hf⟩ := Option.ne_none_iff_exists'.mp hl
    rw [h0]
    exact ⟨_, decode_pack_extended c _ _ hf⟩
  · have hl : opcodeMap.lookup (opField w) ≠ none := fun e => hop ((mem_unnamedOpcodes_iff _).mpr ⟨h0, e⟩)
    obtain ⟨o, ho⟩ := Option.ne_none_iff_exists'.mp hl
    exact ⟨_, decode_pack_ordinary c _ _ h0 ho⟩

theorem opField_eq_ofNat (w : Word) : opField w = BitVec.ofNat 5 w.toNat := rfl

theorem bField_eq_ofNat (w : Word) : bField w = BitVec.ofNat 5 (w.toNat / 32) :=
  congrArg (BitVec.ofNat 5) (Nat.shiftRight_eq_div_pow w.toNat 5)

theorem aField_eq_ofNat (w : Word) : aField w = BitVec.ofNat 6 (w.toNat / 1024) :=
  congrArg (BitVec.ofNat 6) (Nat.shiftRight_eq_div_pow w.toNat 10)

/-- Settles O6: the lookup that fails is that of the opcode, or that of the discriminant where op is 0. -/
theorem decoderRejectsExactlyTheUnnamedWords : Obligations.DecoderRejectsExactlyTheUnnamedWords := by
  intro c w
  rw [← opField_eq_ofNat, ← bField_eq_ofNat, ← aField_eq_ofNat]
  exact ⟨decode_of_unnamedOpcode c, fun ⟨h0, h⟩ => decode_of_unnamedDiscriminant h0 h,
    fun ⟨hop, hd⟩ => decode_of_named hop hd⟩

/-- 0 is a free discriminant, so it names an operation only where P_HLT_OP is 0 (R83, R84). -/
theorem unnamedDiscriminant_zero {c : Config} (h : c.hltCode ≠ some 0) : unnamedDiscriminant c 0 := ⟨rfl, h⟩

/-- Settles O8: the listed words evaluate to what the spec writes beside them; discriminant 0 is unnamed under the
hypothesis on P_HLT_OP. -/
theorem wordsOfTheSpecDecodeAsTheSpecSays : Obligations.WordsOfTheSpecDecodeAsTheSpecSays := by
  intro c
  refine ⟨rfl, rfl, rfl, rfl, rfl, rfl, rfl, rfl, rfl, rfl, rfl, rfl, rfl, rfl, rfl, rfl, fun h => ⟨?_, ?_⟩⟩
  · exact decode_of_unnamedDiscriminant (w := 0x0000) rfl (unnamedDiscriminant_zero h)
  · exact decode_of_unnamedDiscriminant (w := 0x7C00) rfl (unnamedDiscriminant_zero h)

/-- Settles O37: the zero word is rejected with discriminant 0 and operand A, which resolves without moving PC or SP. -/
theorem zeroWordFaults : Obligations.ZeroWordFaults := by
  intro s hs hw hc
  have hd : s.decoded = .invalidExtended 0 (.reg .a) := by
    rw [State.decoded, State.fetchWord_eq, hw]
    exact decode_of_unnamedDiscriminant (w := 0) rfl (unnamedDiscriminant_zero hc)
  rw [step_running hs, hd]
  rfl

/-! An operand that no word encodes (R74, R116, R282) -/

theorem legalIn_b_inline (k : BitVec 5) : (Operand.inline k).legalIn .b = false := rfl

/-- The code of an inline literal lies above every code of the 5-bit b field (R74, R115). -/
theorem code_inline_toNat (k : BitVec 5) : (Operand.inline k).code.toNat = 0x20 + k.toNat := by
  revert k; decide

/-- Settles O39: an inline literal is illegal in b position, so the shared part of a step faults once a is resolved,
whatever the handler. -/
theorem illegalBOperandFaultsBeforeTheHandler : Obligations.IllegalBOperandFaultsBeforeTheHandler := by
  intro i k s hb
  rcases exec_cases i with ⟨b, handler, hb', he⟩ | ⟨-, hb', -⟩
  · cases hb'.symm.trans hb
    have hfault := ordinary_illegal s i.aOperand (legalIn_b_inline k) handler
    exact ⟨_, _, (he s).trans (congrArg _ hfault), rfl, rfl, rfl, code_inline_toNat k, rfl, rfl⟩
  · cases hb'.symm.trans hb

end Sys2Proof.Machine
end

section
/-! SUPPORT. What each operand code resolves to (R102), and stores whose operands are the stack or a Literal. -/

namespace Sys2Proof.Machine

/-! From an operand code to its form (R75, R102) -/

/-- The number of a form's code names that form. -/
theorem ofCode_of_code_toNat {o : Operand} {k : Nat} (h : o.code.toNat = k) : Operand.ofCode (BitVec.ofNat 6 k) = o := by
  rw [← h, BitVec.ofNat_toNat, BitVec.setWidth_eq, ofCode_code]

theorem code_reg_toNat (r : Reg) : (Operand.reg r).code.toNat = r.index.toNat := by cases r <;> rfl

theorem code_ind_toNat (r : Reg) : (Operand.ind r).code.toNat = 0x08 + r.index.toNat := by cases r <;> rfl

theorem code_indNext_toNat (r : Reg) : (Operand.indNext r).code.toNat = 0x10 + r.index.toNat := by cases r <;> rfl

/-- The registers stand at their indices in the order A, B, C, X, Y, Z, I, J (R20). -/
theorem index_toNat_of_getElem? {k : Nat} {r : Reg} (h : [Reg.a, .b, .c, .x, .y, .z, .i, .j][k]? = some r) :
    r.index.toNat = k := by
  have hall : ∀ n : Fin 8, ([Reg.a, .b, .c, .x, .y, .z, .i, .j][n]).index.toNat = n := by decide
  obtain ⟨hk, rfl⟩ := List.getElem?_eq_some_iff.mp h
  exact hall ⟨k, hk⟩

/-- The value of the inline literal whose code is `0x20 + k` (R115). -/
theorem inlineValue_toNat (k : BitVec 5) : (inlineValue k).toNat = (0x20 + k.toNat + 65536 - 0x21) % 65536 := by
  simp only [inlineValue, wrap16, BitVec.toNat_ofInt]
  omega

/-- The three register groups of R102, for the register at index `k`: its own value, its cell, and its cell displaced by the
next word. -/
theorem resolve_register_codes {k : Nat} {r : Reg} (hk : r.index.toNat = k) (p : Position) (s : State) :
    resolve (.ofCode (BitVec.ofNat 6 k)) p s = (some (.register r), s) ∧
    resolve (.ofCode (BitVec.ofNat 6 (0x08 + k))) p s = (some (.memoryCell (s.reg r)), s) ∧
    resolve (.ofCode (BitVec.ofNat 6 (0x10 + k))) p s =
      (some (.memoryCell (s.memRead s.cpu.pc + s.reg r)), s.setPc (s.cpu.pc + 1)) := by
  subst hk
  rw [ofCode_of_code_toNat (code_reg_toNat r), ofCode_of_code_toNat (code_ind_toNat r),
    ofCode_of_code_toNat (code_indNext_toNat r)]
  exact ⟨rfl, rfl, rfl⟩

/-- The codes from 0x20 on are inline literals in a position, and take no word (R115). -/
theorem resolve_inline_code {k : Nat} (h : 0x20 ≤ k) (h' : k < 0x40) (s : State) :
    ∃ u, resolve (.ofCode (BitVec.ofNat 6 k)) .a s = (some (.literal u), s) ∧
      u.toNat = (k + 65536 - 0x21) % 65536 := by
  have hk : 0x20 + (BitVec.ofNat 5 (k - 0x20)).toNat = k := by
    rw [BitVec.toNat_ofNat]
    omega
  have hvalue := inlineValue_toNat (BitVec.ofNat 5 (k - 0x20))
  rw [ofCode_of_code_toNat ((code_inline_toNat _).trans hk)]
  rw [hk] at hvalue
  exact ⟨_, rfl, hvalue⟩

/-- Settles O12: the register groups and the inline literals by `resolve_register_codes` and `resolve_inline_code`; every
other code is the resolver's own row, and SP, PC and EX are read and written in place. -/
theorem operandFormsResolveAsTheTableSays : Obligations.OperandFormsResolveAsTheTableSays := by
  intro s p v
  refine ⟨fun k r h => ?_, rfl, rfl, rfl, rfl, rfl, rfl, rfl, fun k h h' => resolve_inline_code h h' s,
    rfl, rfl, rfl, rfl, rfl, rfl⟩
  obtain ⟨hreg, hind, hnext⟩ := resolve_register_codes (index_toNat_of_getElem? h) p s
  exact ⟨hreg, hind, hnext, s.getLoc_register r⟩

/-- Settles O13: the resolver's rows for code 0x18, with SP - 1 and SP + 1 as natural numbers modulo 65536. -/
theorem pushAndPopMoveTheStackPointer : Obligations.PushAndPopMoveTheStackPointer := by
  intro s
  have hpush : (s.cpu.sp - 1).toNat = (s.cpu.sp.toNat + 65535) % 65536 := by bv_omega
  have hpop : (s.cpu.sp + 1).toNat = (s.cpu.sp.toNat + 1) % 65536 := BitVec.toNat_add ..
  exact ⟨⟨s.cpu.sp - 1, hpush, rfl, fun h => by rw [hpush, h]⟩, ⟨s.cpu.sp + 1, hpop, rfl, fun h => by rw [hpop, h]⟩⟩

/-! Both operands on the stack (R124, R125) -/

/-- What every read gives after a push: the Word at the new SP. -/
theorem State.push_memRead {s : State} (h : s.mem.wf = true) (v x : Word) :
    (s.push v).memRead x = if x = s.cpu.sp - 1 then v else s.memRead x :=
  State.memRead_memWrite (s := s.setSp (s.cpu.sp - 1)) h _ v x

/-- `ADD PUSH, POP` executed: the pop's SP + 1 is undone by the push, so both operands are the cell at SP. -/
theorem exec_add_push_pop {s : State} (hs : s.cpu.skip = false) :
    exec (.add .pushPop .pushPop) s =
      .next ((s.memWrite s.cpu.sp (addValue (s.memRead s.cpu.sp) (s.memRead s.cpu.sp))).setEx
        (addEx (s.memRead s.cpu.sp) (s.memRead s.cpu.sp))) := by
  simp [exec, execAdd, ordinary, resolveBoth, resolve, hs, arithExHandler, State.setLoc_stackPush]

/-- `SET PUSH, a` executed, where resolving a changes nothing: a push of what a's Location reads once SP has moved. -/
theorem exec_set_push {a : Operand} {la : Location} {s : State} (hs : s.cpu.skip = false)
    (ha : resolve a .a s = (some la, s)) :
    exec (.set .pushPop a) s = .next (s.push ((s.setSp (s.cpu.sp - 1)).getLoc la)) := by
  have hb : resolve .pushPop .b s = (some (.stackPush (s.cpu.sp - 1)), s.setSp (s.cpu.sp - 1)) := rfl
  have hr : resolveBoth .pushPop a s = .resolved (.stackPush (s.cpu.sp - 1), la) (s.setSp (s.cpu.sp - 1)) := by
    simp only [resolveBoth, ha, hb]
  simp [exec, execSet, ordinary, hr, hs, moveHandler, State.setLoc_stackPush]

/-- Settles O14: ADD PUSH, POP stores at SP; a peek keeps the old SP's cell when the push moves SP, and the SP Location reads
the moved SP. -/
theorem stackOperandsOfOneInstructionInteract : Obligations.StackOperandsOfOneInstructionInteract := by
  intro s hs hm
  refine ⟨⟨_, exec_add_push_pop hs, rfl, rfl, rfl, fun x => ?_⟩,
    ⟨_, exec_set_push (la := .stackPeek s.cpu.sp) hs rfl, rfl, rfl, rfl, State.push_memRead hm _⟩,
    ⟨_, exec_set_push (la := .stackPointer) hs rfl, rfl, rfl, rfl, State.push_memRead hm _⟩⟩
  rw [State.setEx_memRead, State.memRead_memWrite hm]
  split
  · next hx => rw [hx, addValue_toNat, Nat.two_mul]
  · rfl

/-! A Literal as the destination (R122) -/

@[simp] theorem State.afterOperands_gpr (s : State) (i : Instr) : (s.afterOperands i).cpu.gpr = s.cpu.gpr := by
  obtain ⟨n, d, e⟩ := s.afterOperands_eq_advance i
  rw [e, State.advance_gpr]

/-- A long literal in b position resolves to a Literal Location (R114). -/
theorem resolveBoth_litNext {a : Operand} {s s1 : State} {lb la : Location}
    (h : resolveBoth .litNext a s = .resolved (lb, la) s1) : ∃ w, lb = .literal w := by
  obtain ⟨s0, -, hb⟩ := resolveBoth_eq_resolved h
  cases hb
  exact ⟨_, rfl⟩

/-- No conditional writes b (R180). -/
theorem not_isConditional_of_writesB {i : Instr} (h : i.writesB = true) : i.isConditional ≠ true := by
  cases i with
  | ifb | ifc | ife | ifn | ifg | ifl => cases h
  | _ => exact Bool.false_ne_true

/-- A handler that stores its result in a Literal writes EX, where its instruction does, and nothing else (R122, R153). -/
theorem OrdinaryMeaning.literal {i : Instr} {h : Location → Location → State → State} (hh : OrdinaryMeaning i h)
    (hw : i.writesB = true) (w : Word) (la : Location) (s : State) :
    ∃ e, h (.literal w) la s = s.setEx e ∧ (i.writesEx = false → e = s.cpu.ex) := by
  cases hh with
  | store value => exact ⟨s.cpu.ex, rfl, fun _ => rfl⟩
  | storeEx value ex _ hx => exact ⟨_, rfl, fun hn => nomatch hx.symm.trans hn⟩
  | condition holds hc => exact absurd hc (not_isConditional_of_writesB hw)
  | inert => exact ⟨s.cpu.ex, rfl, fun _ => rfl⟩

/-- An instruction that stores its result in a long literal, executed, leaves what resolution left, EX apart. -/
theorem exec_literal_destination {i : Instr} {s : State} (hw : i.writesB = true) (hb : i.bOperand = some .litNext)
    (hs : s.cpu.skip = false) :
    ∃ e, exec i s = .next ((s.afterOperands i).setEx e) ∧ (i.writesEx = false → e = s.cpu.ex) := by
  rcases exec_meaning i with ⟨b, h, hh, hb', he⟩ | ⟨-, -, hb', -⟩
  · cases hb'.symm.trans hb
    obtain ⟨lb, la, s1, hs1, hr, ho⟩ := ordinary_legal s i.aOperand (b := .litNext) rfl
    cases hs1.trans (s.afterOperands_some hb).symm
    obtain ⟨w, rfl⟩ := resolveBoth_litNext hr
    obtain ⟨e, hset, hex⟩ := hh.literal hw w la (s.afterOperands i)
    refine ⟨e, ?_, fun hn => (hex hn).trans (s.afterOperands_ex i)⟩
    rw [he, ho, hs, cond_false, hset]
  · cases hb'.symm.trans hb

/-- Settles O24: the next state is the one that resolution left with EX set, field by field. -/
theorem literalDestinationDiscardsTheResult : Obligations.LiteralDestinationDiscardsTheResult := by
  intro i s hw hb hs
  obtain ⟨e, he, hex⟩ := exec_literal_destination hw hb hs
  exact ⟨_, he, s.afterOperands_gpr i, s.afterOperands_mem i, rfl, rfl, (s.afterOperands_skip i).trans hs,
    s.afterOperands_status i, hex⟩

end Sys2Proof.Machine
end

section
/-! SUPPORT. What an executed arithmetic, logic, shift or move instruction stores (R140-R152): the handler that each one runs,
and what a store of a result and of EX leaves of the whole state. -/

namespace Sys2Proof.Machine

/-! What a store leaves of every part of the state -/

/-- A result stored in a Location and EX written last (R152). -/
theorem WritesOnly.of_setLoc_setEx {s : State} (hm : s.mem.wf = true) (l : Location) (v e : Word) :
    WritesOnly l v e s ((s.setLoc l v).setEx e) where
  reg := by simp
  pc := by simp
  sp := by simp
  ex := rfl
  skip := by simp
  status := by simp
  config := by simp
  mem := State.setLoc_memRead l v hm

/-- A result stored in a Location, EX being what that write leaves. -/
theorem WritesOnly.of_setLoc {s : State} (hm : s.mem.wf = true) (l : Location) (v : Word) :
    WritesOnly l v (if l = .overflow then v else s.cpu.ex) s (s.setLoc l v) := by
  rw [← State.setLoc_ex]
  exact .of_setLoc_setEx hm l v _

/-! The handler that each instruction runs -/

/-- `exec` gives the ordinary operation `o` the handler `h`, in the shared part of a step. -/
def RunsHandler (o : OrdinaryOp) (h : Location → Location → State → State) : Prop :=
  ∀ b a s, exec (o.instr b a) s = .next (ordinary h b a s)

/-- R141: SET is a store of a value that does not depend on b. -/
theorem runsHandler_set : RunsHandler .set (arithHandler fun _ a => a) := fun _ _ _ => rfl
theorem runsHandler_add : RunsHandler .add (arithExHandler addValue addEx) := fun _ _ _ => rfl
theorem runsHandler_sub : RunsHandler .sub (arithExHandler subValue subEx) := fun _ _ _ => rfl
theorem runsHandler_mul : RunsHandler .mul (arithExHandler mulValue mulEx) := fun _ _ _ => rfl
theorem runsHandler_div : RunsHandler .div (arithExHandler divValue divEx) := fun _ _ _ => rfl
theorem runsHandler_mod : RunsHandler .mod (arithHandler modValue) := fun _ _ _ => rfl
theorem runsHandler_and : RunsHandler .and (arithHandler andValue) := fun _ _ _ => rfl
theorem runsHandler_bor : RunsHandler .bor (arithHandler borValue) := fun _ _ _ => rfl
theorem runsHandler_xor : RunsHandler .xor (arithHandler xorValue) := fun _ _ _ => rfl
theorem runsHandler_shl : RunsHandler .shl (arithExHandler shlValue shlEx) := fun _ _ _ => rfl
theorem runsHandler_shr : RunsHandler .shr (arithExHandler shrValue shrEx) := fun _ _ _ => rfl

/-! Executing it on resolved operands -/

/-- Operands that resolve leave the state in which an instruction with those operands runs its handler. -/
theorem eq_afterOperands_of_resolveBoth (o : OrdinaryOp) {b a : Operand} {s s1 : State} {lb la : Location}
    (hr : resolveBoth b a s = .resolved (lb, la) s1) : s1 = s.afterOperands (o.instr b a) := by
  cases hl : b.legalIn .b with
  | false => cases (resolveBoth_illegal s a hl).symm.trans hr
  | true =>
    obtain ⟨lb', la', e⟩ := resolveBoth_legal s a hl
    cases e.symm.trans hr
    rw [s.afterOperands_some (bOperand_ordinary o b a), aOperand_ordinary]

section
variable {o : OrdinaryOp} {b a : Operand} {s s1 : State} {lb la : Location} {value ex : Word → Word → Word}

/-- Executed (skip false), an instruction whose operands resolve runs its handler on their Locations. -/
theorem RunsHandler.exec_resolved {h : Location → Location → State → State} (hrun : RunsHandler o h)
    (hs : s.cpu.skip = false) (hr : resolveBoth b a s = .resolved (lb, la) s1) :
    exec (o.instr b a) s = .next (h lb la s1) := by
  have hs1 : s1.cpu.skip = false := by rw [eq_afterOperands_of_resolveBoth o hr, State.afterOperands_skip, hs]
  rw [hrun, ordinary, hr]
  simp only [hs1, cond_false]

/-- An executed instruction that leaves EX alone writes its result to b's Location and nothing else. -/
theorem RunsHandler.arith_writesOnly (hrun : RunsHandler o (arithHandler value)) (hs : s.cpu.skip = false)
    (hm : s.mem.wf = true) (hr : resolveBoth b a s = .resolved (lb, la) s1) :
    ∃ t, exec (o.instr b a) s = .next t ∧ WritesOnly lb (value (s1.getLoc lb) (s1.getLoc la))
      (if lb = .overflow then value (s1.getLoc lb) (s1.getLoc la) else s1.cpu.ex) s1 t := by
  have hm1 : s1.mem.wf = true := by rwa [eq_afterOperands_of_resolveBoth o hr, State.afterOperands_mem]
  exact ⟨_, hrun.exec_resolved hs hr, .of_setLoc hm1 _ _⟩

/-- An executed instruction that writes EX writes its result to b's Location, its EX value to EX, and nothing else. -/
theorem RunsHandler.arithEx_writesOnly (hrun : RunsHandler o (arithExHandler value ex)) (hs : s.cpu.skip = false)
    (hm : s.mem.wf = true) (hr : resolveBoth b a s = .resolved (lb, la) s1) :
    ∃ t, exec (o.instr b a) s = .next t ∧ WritesOnly lb (value (s1.getLoc lb) (s1.getLoc la))
      (ex (s1.getLoc lb) (s1.getLoc la)) s1 t := by
  have hm1 : s1.mem.wf = true := by rwa [eq_afterOperands_of_resolveBoth o hr, State.afterOperands_mem]
  exact ⟨_, hrun.exec_resolved hs hr, .of_setLoc_setEx hm1 _ _ _⟩

/-- `StoresResult` of an instruction that leaves EX alone, from its result as a natural number. -/
theorem RunsHandler.storesResult {f : Nat → Nat → Nat} (hrun : RunsHandler o (arithHandler value))
    (hv : ∀ x y, (value x y).toNat = f x.toNat y.toNat) : StoresResult o.instr f none := by
  intro b a s hb hs hm
  obtain ⟨lb, la, hr⟩ := resolveBoth_legal s a hb
  obtain ⟨t, he, hw⟩ := hrun.arith_writesOnly hs hm hr
  exact ⟨lb, la, _, t, _, _, hr, eq_afterOperands_of_resolveBoth o hr, he, hv _ _, rfl, hw⟩

/-- `StoresResult` of an instruction that writes EX, from its result and its EX value as natural numbers. -/
theorem RunsHandler.storesResultEx {f g : Nat → Nat → Nat} (hrun : RunsHandler o (arithExHandler value ex))
    (hv : ∀ x y, (value x y).toNat = f x.toNat y.toNat) (hx : ∀ x y, (ex x y).toNat = g x.toNat y.toNat) :
    StoresResult o.instr f (some g) := by
  intro b a s hb hs hm
  obtain ⟨lb, la, hr⟩ := resolveBoth_legal s a hb
  obtain ⟨t, he, hw⟩ := hrun.arithEx_writesOnly hs hm hr
  exact ⟨lb, la, _, t, _, _, hr, eq_afterOperands_of_resolveBoth o hr, he, hv _ _, hx _ _, hw⟩

end

end Sys2Proof.Machine
end

section
/-! SUPPORT. The statements about stored results (R141-R151), from each instruction's handler and its results as natural
numbers; shifts by 32 or more, and division with remainder (R155). -/

namespace Sys2Proof.Machine

/-- Settles O15: SET's handler stores a's value as read. -/
theorem setMovesTheSourceAndLeavesEx : Obligations.SetMovesTheSourceAndLeavesEx :=
  runsHandler_set.storesResult fun _ _ => rfl

/-- Settles O16: the laws of sum, carry, difference and borrow, for the handlers of ADD and SUB. -/
theorem addAndSubStoreResultAndCarry : Obligations.AddAndSubStoreResultAndCarry :=
  ⟨runsHandler_add.storesResultEx addValue_toNat addEx_toNat, runsHandler_sub.storesResultEx subValue_toNat subEx_toNat⟩

/-- Settles O17: the laws of the two halves of the product, for the handler of MUL. -/
theorem mulStoresBothHalves : Obligations.MulStoresBothHalves :=
  runsHandler_mul.storesResultEx mulValue_toNat mulEx_toNat

/-- Settles O18: a divisor of 0 is a case of both values (R283), not of the handler. -/
theorem divStoresQuotientAndFraction : Obligations.DivStoresQuotientAndFraction :=
  runsHandler_div.storesResultEx divValue_toNat divEx_toNat

/-- Settles O19: a divisor of 0 is a case of the value, not of the handler. -/
theorem modStoresTheRemainderAndLeavesEx : Obligations.ModStoresTheRemainderAndLeavesEx :=
  runsHandler_mod.storesResult modValue_toNat

/-- Settles O20: the three bitwise laws, for handlers that leave EX alone. -/
theorem logicStoresTheBitwiseResult : Obligations.LogicStoresTheBitwiseResult :=
  ⟨runsHandler_and.storesResult andValue_toNat, runsHandler_bor.storesResult borValue_toNat,
    runsHandler_xor.storesResult xorValue_toNat⟩

/-- Settles O21: the laws of the shifts as unbounded integers, for the handlers of SHL and SHR. -/
theorem shiftsStoreResultAndBitsShiftedOut : Obligations.ShiftsStoreResultAndBitsShiftedOut :=
  ⟨runsHandler_shl.storesResultEx shlValue_toNat shlEx_toNat, runsHandler_shr.storesResultEx shrValue_toNat shrEx_toNat⟩

/-! A shift by 32 or more (R150, R151) -/

/-- Shifting left by 32 or more leaves a multiple of 65536 * 65536: 0 in both the result and the bits shifted out. -/
theorem shl_eq_zero {b a : Word} (h : 32 ≤ a.toNat) : shlValue b a = 0 ∧ shlEx b a = 0 := by
  have hdvd : 2 ^ 32 ∣ b.toNat * 2 ^ a.toNat := (Nat.pow_dvd_pow 2 h).mul_left _
  exact ⟨BitVec.eq_of_toNat_eq ((shlValue_toNat b a).trans (show _ = 0 by omega)),
    BitVec.eq_of_toNat_eq ((shlEx_toNat b a).trans (show _ = 0 by omega))⟩

/-- Shifting right by 32 or more divides a Word, and 65536 times a Word, by more than it. -/
theorem shr_eq_zero {b a : Word} (h : 32 ≤ a.toNat) : shrValue b a = 0 ∧ shrEx b a = 0 := by
  have hpow : 2 ^ 32 ≤ 2 ^ a.toNat := Nat.pow_le_pow_right (by decide) h
  have hb := b.isLt
  have hv : b.toNat / 2 ^ a.toNat = 0 := Nat.div_eq_of_lt (by omega)
  have hx : b.toNat * 65536 / 2 ^ a.toNat = 0 := Nat.div_eq_of_lt (by omega)
  exact ⟨BitVec.eq_of_toNat_eq ((shrValue_toNat b a).trans hv),
    BitVec.eq_of_toNat_eq ((shrEx_toNat b a).trans (congrArg (· % 65536) hx))⟩

/-- Settles O22: SHL and SHR write what `shl_eq_zero` and `shr_eq_zero` give. -/
theorem shiftCountsOf32OrMoreClearBoth : Obligations.ShiftCountsOf32OrMoreClearBoth := by
  intro mk b a s s1 lb la hmk hs hm hr h32
  rcases List.mem_pair.mp hmk with rfl | rfl
  · obtain ⟨hv, hx⟩ := shl_eq_zero (b := s1.getLoc lb) h32
    obtain ⟨t, he, hw⟩ := runsHandler_shl.arithEx_writesOnly hs hm hr
    rw [hv, hx] at hw
    exact ⟨t, he, hw⟩
  · obtain ⟨hv, hx⟩ := shr_eq_zero (b := s1.getLoc lb) h32
    obtain ⟨t, he, hw⟩ := runsHandler_shr.arithEx_writesOnly hs hm hr
    rw [hv, hx] at hw
    exact ⟨t, he, hw⟩

/-! Division with remainder (R145, R146, R155) -/

/-- With a register as b, the operands resolve as a alone does, and b reads and writes that register. -/
theorem resolveBoth_reg {a : Operand} {s s1 : State} {la : Location} (r : Reg) (h : resolveA a s = .resolved la s1) :
    resolveBoth (.reg r) a s = .resolved (.register r, la) s1 := by
  have hb : resolve (.reg r) .b s1 = (some (.register r), s1) := rfl
  simp only [resolveBoth, resolveA_eq_resolved h, hb]

/-- What a stored result leaves in the register that is its destination, where EX is not written and where it is. -/
theorem arithHandler_reg (value : Word → Word → Word) (r : Reg) (la : Location) (s : State) :
    (arithHandler value (.register r) la s).reg r = value (s.reg r) (s.getLoc la) := by
  simp [arithHandler]

theorem arithExHandler_reg (value ex : Word → Word → Word) (r : Reg) (la : Location) (s : State) :
    (arithExHandler value ex (.register r) la s).reg r = value (s.reg r) (s.getLoc la) := by
  simp [arithExHandler]

/-- Settles O23: DIV leaves the quotient and MOD the remainder of one dividend, which resolving a has not changed. -/
theorem quotientAndRemainderRebuildTheDividend : Obligations.QuotientAndRemainderRebuildTheDividend := by
  intro r a s s1 la hs ha hy
  have hr := resolveBoth_reg r ha
  have hreg : s1.reg r = s.reg r := by rw [eq_afterOperands_of_resolveBoth .div hr, State.afterOperands_reg]
  refine ⟨_, _, runsHandler_div.exec_resolved hs hr, runsHandler_mod.exec_resolved hs hr, ?_⟩
  rw [arithExHandler_reg, arithHandler_reg, divValue_toNat, modValue_toNat, if_neg hy, if_neg hy, hreg]
  exact ⟨(Nat.div_add_mod' _ _).symm, Nat.mod_lt _ (Nat.pos_of_ne_zero hy)⟩

end Sys2Proof.Machine
end

section
/-! SUPPORT. What an executed conditional leaves (R180-R186): the predicate that each one tests, and the skip latch. -/

namespace Sys2Proof.Machine

/-! The handler that each conditional runs -/

theorem runsHandler_ifb : RunsHandler .ifb (conditionHandler ifbHolds) := fun _ _ _ => rfl
theorem runsHandler_ifc : RunsHandler .ifc (conditionHandler ifcHolds) := fun _ _ _ => rfl
theorem runsHandler_ife : RunsHandler .ife (conditionHandler ifeHolds) := fun _ _ _ => rfl
theorem runsHandler_ifn : RunsHandler .ifn (conditionHandler ifnHolds) := fun _ _ _ => rfl
theorem runsHandler_ifg : RunsHandler .ifg (conditionHandler ifgHolds) := fun _ _ _ => rfl
theorem runsHandler_ifl : RunsHandler .ifl (conditionHandler iflHolds) := fun _ _ _ => rfl

/-- `SetsSkip` of an instruction that runs a condition's handler, from its predicate on natural numbers. -/
theorem RunsHandler.setsSkip {o : OrdinaryOp} {holds : Word → Word → Bool} {p : Nat → Nat → Bool}
    (hrun : RunsHandler o (conditionHandler holds)) (hp : ∀ x y, holds x y = true ↔ p x.toNat y.toNat = true) :
    SetsSkip o.instr p := by
  intro b a s hb hs
  obtain ⟨lb, la, hr⟩ := resolveBoth_legal s a hb
  refine ⟨lb, la, _, hr, eq_afterOperands_of_resolveBoth o hr, ?_⟩
  rw [hrun.exec_resolved hs hr, conditionHandler, Bool.eq_iff_iff.mpr (hp _ _)]
  rfl

/-- Settles O25: each conditional's handler writes the skip latch alone, and its predicate on Words is the one on their
unsigned values. -/
theorem conditionalsSetSkipToNotPredicate : Obligations.ConditionalsSetSkipToNotPredicate :=
  ⟨runsHandler_ifb.setsSkip fun x y => (ifbHolds_iff x y).trans bne_iff_ne.symm,
    runsHandler_ifc.setsSkip fun x y => (ifcHolds_iff x y).trans beq_iff_eq.symm,
    runsHandler_ife.setsSkip fun x y => (ifeHolds_iff x y).trans beq_iff_eq.symm,
    runsHandler_ifn.setsSkip fun x y => (ifnHolds_iff x y).trans bne_iff_ne.symm,
    runsHandler_ifg.setsSkip fun x y => (ifgHolds_iff x y).trans decide_eq_true_iff.symm,
    runsHandler_ifl.setsSkip fun x y => (iflHolds_iff x y).trans decide_eq_true_iff.symm⟩

end Sys2Proof.Machine
end

section
/-! SUPPORT. The extended instructions (R200-R211): the handler that each one runs where its operand's resolution left the
machine, and JSR's push, the one write that a Location read after it can see. -/

namespace Sys2Proof.Machine

/-! The handler that each extended instruction runs -/

/-- `exec` gives the extended instructions `mk a` the handler `h`, in the shared part of a step. -/
structure RunsExtended (mk : Operand → Instr) (h : Location → State → State) : Prop where
  bOperand : ∀ a, (mk a).bOperand = none
  aOperand : ∀ a, (mk a).aOperand = a
  runs : ∀ a s, exec (mk a) s = .next (extended h a s)

theorem runsExtended_jsr : RunsExtended .jsr (callHandler .afterPush) := ⟨fun _ => rfl, fun _ => rfl, fun _ _ => rfl⟩
theorem runsExtended_hlt : RunsExtended .hlt haltHandler := ⟨fun _ => rfl, fun _ => rfl, fun _ _ => rfl⟩
theorem runsExtended_int : RunsExtended .int inertExtendedHandler := ⟨fun _ => rfl, fun _ => rfl, fun _ _ => rfl⟩
theorem runsExtended_iag : RunsExtended .iag inertExtendedHandler := ⟨fun _ => rfl, fun _ => rfl, fun _ _ => rfl⟩
theorem runsExtended_ias : RunsExtended .ias inertExtendedHandler := ⟨fun _ => rfl, fun _ => rfl, fun _ _ => rfl⟩
theorem runsExtended_iap : RunsExtended .iap inertExtendedHandler := ⟨fun _ => rfl, fun _ => rfl, fun _ _ => rfl⟩
theorem runsExtended_iaq : RunsExtended .iaq inertExtendedHandler := ⟨fun _ => rfl, fun _ => rfl, fun _ _ => rfl⟩
theorem runsExtended_hwn : RunsExtended .hwn inertExtendedHandler := ⟨fun _ => rfl, fun _ => rfl, fun _ _ => rfl⟩
theorem runsExtended_hwq : RunsExtended .hwq inertExtendedHandler := ⟨fun _ => rfl, fun _ => rfl, fun _ _ => rfl⟩
theorem runsExtended_hwi : RunsExtended .hwi inertExtendedHandler := ⟨fun _ => rfl, fun _ => rfl, fun _ _ => rfl⟩

/-- The operand always resolves, to the state of `afterOperands`; there the instruction is skipped or its handler runs. -/
theorem RunsExtended.exec_eq {mk : Operand → Instr} {h : Location → State → State} (hrun : RunsExtended mk h)
    (a : Operand) (s : State) :
    ∃ la, resolveA a s = .resolved la (s.afterOperands (mk a)) ∧
      exec (mk a) s =
        .next (bif s.cpu.skip then (s.afterOperands (mk a)).setSkip false else h la (s.afterOperands (mk a))) := by
  obtain ⟨la, s1, hs1, hr, he⟩ := extended_eq s a
  have hafter : s.afterOperands (mk a) = s1 := by rw [s.afterOperands_none (hrun.bOperand a), hrun.aOperand, hs1]
  rw [hafter]
  exact ⟨la, hr, (hrun.runs a s).trans (congrArg _ (he h))⟩

/-- Executed (skip false), the handler runs on the operand's Location. -/
theorem RunsExtended.exec_executed {mk : Operand → Instr} {h : Location → State → State} (hrun : RunsExtended mk h)
    (a : Operand) {s : State} (hs : s.cpu.skip = false) :
    ∃ la, resolveA a s = .resolved la (s.afterOperands (mk a)) ∧
      exec (mk a) s = .next (h la (s.afterOperands (mk a))) := by
  simpa only [hs, cond_false] using hrun.exec_eq a s

/-! The inert forms and HLT -/

/-- An instruction that runs the inert handler does nothing beyond resolving its operand (R211). -/
theorem RunsExtended.onlyResolvesA {mk : Operand → Instr} (hrun : RunsExtended mk inertExtendedHandler) :
    OnlyResolvesA mk := by
  intro a s
  obtain ⟨la, -, he⟩ := hrun.exec_eq a s
  rw [he]
  constructor
  · intro hs
    rw [hs, cond_false, inertExtendedHandler]
  · intro hs
    rw [hs, cond_true, State.setSkip]

/-- Settles O27: the eight forms run the inert handler. -/
theorem inertExtendedInstructionsOnlyResolve : Obligations.InertExtendedInstructionsOnlyResolve :=
  ⟨runsExtended_int.onlyResolvesA, runsExtended_iag.onlyResolvesA, runsExtended_ias.onlyResolvesA,
    runsExtended_iap.onlyResolvesA, runsExtended_iaq.onlyResolvesA, runsExtended_hwn.onlyResolvesA,
    runsExtended_hwq.onlyResolvesA, runsExtended_hwi.onlyResolvesA⟩

/-- Settles O31: HLT's handler writes the status alone, and a core that is not Running ignores steps (R260). -/
theorem hltHaltsTheCore : Obligations.HltHaltsTheCore := by
  intro a s hs
  obtain ⟨la, -, he⟩ := runsExtended_hlt.exec_executed a hs
  exact ⟨haltHandler la (s.afterOperands (.hlt a)), rfl, he, step_of_not_running nofun⟩

/-! Reading a Location after JSR's push (R201) -/

/-- A Location that is a cell reads that cell. -/
theorem State.getLoc_of_cell {l : Location} {x : Word} (s : State) (h : l.cell = some x) :
    s.getLoc l = s.memRead x := by
  cases l with
  | memoryCell | stackPush | stackPop | stackPeek => cases h; rfl
  | register | stackPointer | programCounter | overflow | literal => cases h

/-- A push changes what two kinds of Location read: SP itself, and the cell under the old SP. -/
theorem State.push_getLoc {s : State} (hm : s.mem.wf = true) (v : Word) (l : Location) :
    (s.push v).getLoc l =
      if l = .stackPointer then s.cpu.sp - 1 else if l.cell = some (s.cpu.sp - 1) then v else s.getLoc l := by
  cases hl : l.cell with
  | some x =>
    have hsp : l ≠ .stackPointer := by
      rintro rfl
      cases hl
    rw [State.getLoc_of_cell _ hl, State.getLoc_of_cell _ hl, State.push_memRead hm, if_neg hsp]
    simp only [Option.some.injEq]
  | none =>
    cases l with
    | memoryCell | stackPush | stackPop | stackPeek => cases hl
    | stackPointer => rfl
    | register | programCounter | overflow | literal => simp

/-- JSR's two read orders differ only in the Word that ends in PC. -/
theorem callHandler_orders_eq_iff (la : Location) (s : State) :
    callHandler .afterPush la s = callHandler .beforePush la s ↔ (s.push s.cpu.pc).getLoc la = s.getLoc la := by
  constructor
  · exact fun h => congrArg (·.cpu.pc) h
  · exact fun h => congrArg (s.push s.cpu.pc).setPc h

/-- Settles O29: the three cases of `State.push_getLoc`. -/
theorem jsrReadOrderMattersOnlyForSpAndThePushedCell : Obligations.JsrReadOrderMattersOnlyForSpAndThePushedCell := by
  intro la s hm
  simp only [ne_eq, callHandler_orders_eq_iff, State.push_getLoc hm]
  refine ⟨fun hsp hcell => ?_, fun hsp => ?_, fun hcell => ?_⟩
  · rw [if_neg hsp, if_neg hcell]
  · have hmoved : s.cpu.sp - 1 ≠ s.cpu.sp := by bv_omega
    rwa [if_pos hsp, hsp, State.getLoc_stackPointer]
  · have hsp : la ≠ .stackPointer := by
      rintro rfl
      cases hcell
    rw [if_neg hsp, if_pos hcell, State.getLoc_of_cell s hcell, eq_comm]

/-- Settles O28: JSR's handler pushes PC as resolution left it, and `State.push_getLoc` is what its operand then reads. -/
theorem jsrPushesTheReturnAddressAndJumps : Obligations.JsrPushesTheReturnAddressAndJumps := by
  intro a s hs hm
  obtain ⟨la, hr, he⟩ := runsExtended_jsr.exec_executed a hs
  have hm1 : (s.afterOperands (.jsr a)).mem.wf = true := by rwa [State.afterOperands_mem]
  exact ⟨la, _, _, hr, rfl, he, rfl, s.storeCell_of_isCall rfl, fun x => State.push_memRead hm1 _ x,
    State.push_getLoc hm1 _ la, rfl, rfl, hs, rfl⟩

/-! The return (R107, R141) -/

/-- `SET PC, POP` executed: SP moves up by one and PC becomes the Word that was at SP. -/
theorem exec_set_pc_pop {s : State} (hs : s.cpu.skip = false) :
    exec (.set .pc .pushPop) s = .next ((s.setSp (s.cpu.sp + 1)).setPc (s.memRead s.cpu.sp)) := by
  have hr : resolveBoth .pc .pushPop s =
      .resolved (.programCounter, .stackPop s.cpu.sp) (s.setSp (s.cpu.sp + 1)) := rfl
  exact runsHandler_set.exec_resolved hs hr

/-- The top of the stack after a push is the Word pushed. -/
theorem State.push_memRead_top {s : State} (hm : s.mem.wf = true) (v : Word) :
    (s.push v).memRead (s.cpu.sp - 1) = v := (State.push_memRead hm v _).trans (if_pos rfl)

/-- Settles O30: the pop reads the cell that the push wrote, and moves SP back. -/
theorem returnUndoesCall : Obligations.ReturnUndoesCall := by
  intro a s hs hm
  obtain ⟨la, -, he⟩ := runsExtended_jsr.exec_executed a hs
  have hm1 : (s.afterOperands (.jsr a)).mem.wf = true := by rwa [State.afterOperands_mem]
  exact ⟨_, _, he, exec_set_pc_pop hs, State.push_memRead_top hm1 _, BitVec.sub_add_cancel _ _, rfl, rfl, rfl⟩

end Sys2Proof.Machine
end

section
/-! SUPPORT. The ordinary instructions that resolve their operands and do nothing more (R230-R238): the skip test of the
shared part, on operands that are legal, and the handler that leaves the state alone. -/

namespace Sys2Proof.Machine

/-! The handler that each inert instruction runs -/

theorem runsHandler_mli : RunsHandler .mli inertHandler := fun _ _ _ => rfl
theorem runsHandler_dvi : RunsHandler .dvi inertHandler := fun _ _ _ => rfl
theorem runsHandler_mdi : RunsHandler .mdi inertHandler := fun _ _ _ => rfl
theorem runsHandler_asr : RunsHandler .asr inertHandler := fun _ _ _ => rfl
theorem runsHandler_adx : RunsHandler .adx inertHandler := fun _ _ _ => rfl
theorem runsHandler_sbx : RunsHandler .sbx inertHandler := fun _ _ _ => rfl
theorem runsHandler_sti : RunsHandler .sti inertHandler := fun _ _ _ => rfl
theorem runsHandler_std : RunsHandler .std inertHandler := fun _ _ _ => rfl

/-! Executed or skipped -/

/-- A skipped instruction with legal operands resolves them and clears the latch, whatever its handler is (R256). -/
theorem RunsHandler.exec_skipped {o : OrdinaryOp} {h : Location → Location → State → State} (hrun : RunsHandler o h)
    {b : Operand} (a : Operand) {s : State} (hb : b.legalIn .b = true) (hs : s.cpu.skip = true) :
    exec (o.instr b a) s = .next ((s.afterOperands (o.instr b a)).setSkip false) := by
  obtain ⟨lb, la, s1, -, hr, hskip⟩ := ordinary_legal s a hb
  rw [hrun, hskip, hs, cond_true, eq_afterOperands_of_resolveBoth o hr]

/-- An instruction that runs the inert handler does nothing beyond resolving its operands (R230). -/
theorem RunsHandler.onlyResolves {o : OrdinaryOp} (hrun : RunsHandler o inertHandler) : OnlyResolves o.instr := by
  intro b a s hb
  constructor
  · intro hs
    obtain ⟨lb, la, hr⟩ := resolveBoth_legal s a hb
    rw [hrun.exec_resolved hs hr, inertHandler, eq_afterOperands_of_resolveBoth o hr]
  · exact hrun.exec_skipped a hb

/-- Settles O26: the eight instructions run the inert handler. -/
theorem inertOrdinaryInstructionsOnlyResolve : Obligations.InertOrdinaryInstructionsOnlyResolve :=
  ⟨runsHandler_mli.onlyResolves, runsHandler_dvi.onlyResolves, runsHandler_mdi.onlyResolves,
    runsHandler_asr.onlyResolves, runsHandler_adx.onlyResolves, runsHandler_sbx.onlyResolves,
    runsHandler_sti.onlyResolves, runsHandler_std.onlyResolves⟩

end Sys2Proof.Machine
end

section
/-! SUPPORT. A step of a Running core (R251-R259): the instruction that it runs, where it leaves PC, and the two steps that
write nothing but PC and SP, that of a skipped instruction and that of a word that names no operation. -/

namespace Sys2Proof.Machine

/-- A step of a Running core runs the decoded instruction from the state after the fetch (R251). -/
theorem step_of_decode {s : State} {i : Instr} (hr : s.cpu.status = .running)
    (hd : decode s.config (s.memRead s.cpu.pc) = .instr i) : step s = exec i s.afterFetch := by
  have hdec : s.decoded = .instr i := hd
  rw [step_running hr, hdec, runDecoded]

/-- Settles O10: the state after the fetch is the state with PC advanced by one. -/
theorem stepRunsTheDecodedInstruction : Obligations.StepRunsTheDecodedInstruction :=
  fun _ _ hr hd => step_of_decode hr hd

/-! Where an instruction leaves PC -/

/-- The fetch and the resolution of the operands move PC past all the words of the instruction (R88, R101, R252), and SP by
its push or pop. -/
theorem State.afterFetch_afterOperands (s : State) (i : Instr) :
    s.afterFetch.afterOperands i = { s with cpu := { s.cpu with
      pc := s.cpu.pc + BitVec.ofNat 16 i.length
      sp := (s.afterOperands i).cpu.sp } } := by
  cases hb : i.bOperand <;>
    simp [State.afterOperands, State.advance, State.setPc, Instr.length, hb, BitVec.ofNat_add, BitVec.add_assoc]

/-- Only JSR and a store whose b operand is PC write PC, and only where they are executed (R24, R259). -/
theorem ExecEffect.pc {i : Instr} {s t : State} (h : ExecEffect i s t)
    (hlegal : i.bOperand.all (fun b => b.legalIn .b) = true)
    (hn : ¬ (s.cpu.skip = false ∧ (i.isCall = true ∨ (i.writesB = true ∧ i.bOperand = some .pc)))) :
    t.cpu.pc = (s.afterOperands i).cpu.pc := by
  cases h with
  | illegal b hb hl => simp [hb, hl] at hlegal
  | skipped | inert | condition | halt => rfl
  | store l v e hs _ _ hw hl =>
    have hpc : l ≠ .programCounter := fun hl' => hn ⟨hs, .inr ⟨hw, hl .pc (hl' ▸ rfl)⟩⟩
    simp [hpc]
  | call v w hs hc => exact absurd ⟨hs, .inl hc⟩ hn

/-- Settles O33: `ExecEffect.pc` of the instruction that the step runs from the state after the fetch. -/
theorem pcAfterAStepIsTheNextInstruction : Obligations.PcAfterAStepIsTheNextInstruction := by
  intro s t i hr hd h hn
  have he : ExecEffect i s.afterFetch t := exec_effect ((step_of_decode hr hd).symm.trans h)
  rw [he.pc (decode_legal hd) hn, s.afterFetch_afterOperands i]
  simp

/-! A skipped instruction (R256) -/

/-- A skipped instruction whose b operand is legal resolves its operands and clears the latch. -/
theorem exec_of_skip {i : Instr} {s : State} (hlegal : i.bOperand.all (fun b => b.legalIn .b) = true)
    (hs : s.cpu.skip = true) : exec i s = .next ((s.afterOperands i).setSkip false) := by
  obtain ⟨t, ht⟩ := exec_next i s
  have executed : s.cpu.skip ≠ false := by simp [hs]
  cases exec_effect ht with
  | illegal b hb hl => simp [hb, hl] at hlegal
  | skipped => exact ht
  | inert hs' | condition v hs' | store l v e hs' | call v w hs' | halt hs' => exact absurd hs' executed

/-- Settles O32: `exec_of_skip` from the state after the fetch; the status is the Running core's own. -/
theorem skippedInstructionOnlyResolvesItsOperands : Obligations.SkippedInstructionOnlyResolvesItsOperands := by
  intro s i hr hs hd
  have hstep : step s = .next ((s.afterFetch.afterOperands i).setSkip false) :=
    (step_of_decode hr hd).trans (exec_of_skip (decode_legal hd) hs)
  rw [s.afterFetch_afterOperands i] at hstep
  exact ⟨_, hstep, by simp only [State.report, State.setSkip_status, hr], rfl⟩

/-! A word that names no operation (R255, R281) -/

/-- PC past the fetched word and `n` operand words, as a number (R25). -/
theorem State.afterFetch_advance_pc_toNat (s : State) (n : Nat) (d : Word) :
    (s.afterFetch.advance n d).cpu.pc.toNat = (s.cpu.pc.toNat + 1 + n) % 65536 := by
  simp [BitVec.toNat_add]

/-- Settles O36: the b operand of a rejected word is legal, so both operands resolve, and the fault records the PC that this
left. -/
theorem invalidWordFaultsAfterItsOperandsAreResolved : Obligations.InvalidWordFaultsAfterItsOperandsAreResolved := by
  constructor
  · intro s op b a hr hd
    have hdec : s.decoded = .invalidOrdinary op b a := hd
    obtain ⟨-, hb⟩ := decode_invalidOrdinary hd
    refine ⟨(s.afterFetch.advance (a.words + b.words) (a.spMove .a + b.spMove .b)).cpu.pc, ?_, ?_⟩
    · rw [State.afterFetch_advance_pc_toNat, Nat.add_assoc _ a.words]
    · rw [step_running hr, hdec, runDecoded, invalidOrdinary_legal _ op a hb, BitVec.add_assoc]
      rfl
  · intro s d a hr hd
    have hdec : s.decoded = .invalidExtended d a := hd
    refine ⟨(s.afterFetch.advance a.words (a.spMove .a)).cpu.pc, s.afterFetch_advance_pc_toNat _ _, ?_⟩
    rw [step_running hr, hdec, runDecoded, invalidExtended_eq]
    rfl

end Sys2Proof.Machine
end

section
/-! SUPPORT. What the host does between steps: the load, the memory port and the reset of one of several cores (R270-R273,
R310). -/

namespace Sys2Proof.Machine

/-- Settles O49: what reads give after Words are written from address 0 on. -/
theorem loadWritesTheProgramFromAddressZero : Obligations.LoadWritesTheProgramFromAddressZero := by
  intro s words hm
  refine ⟨fun hlen => ⟨_, if_pos hlen, rfl, rfl, fun x => ?_⟩, fun hlen => if_neg (Nat.not_le.mpr hlen)⟩
  have hread : (s.mem.writeFrom 0 words).read x = (words[x.toNat]?).getD (s.mem.read x) := by
    simpa using Memory.read_writeFrom hm 0 words (by omega) x
  exact hread

/-- Truncation is the remainder modulo 65536, of a negative number too (R10). -/
theorem wrap16_toNat (v : Int) : ((wrap16 v).toNat : Int) = v % 65536 := by
  rw [wrap16, BitVec.toNat_ofInt]
  omega

/-- Addresses of the memory port are different Words where they are different numbers. -/
theorem ofNat_eq_ofNat_iff {m n : Nat} (hm : m < 65536) (hn : n < 65536) :
    BitVec.ofNat 16 m = BitVec.ofNat 16 n ↔ m = n := by
  rw [← BitVec.toNat_inj, BitVec.toNat_ofNat, BitVec.toNat_ofNat, Nat.mod_eq_of_lt hm, Nat.mod_eq_of_lt hn]

/-- What a read at the memory port gives after a write to the cell `n` (R271). -/
theorem State.hostRead_memWrite {s : State} (hw : s.mem.wf = true) {m n : Nat} (hm : m < 65536) (hn : n < 65536) (v : Word) :
    (s.memWrite (BitVec.ofNat 16 n) v).hostRead m = if m = n then .ok v else s.hostRead m := by
  simp only [State.hostRead, if_pos hm, State.memRead_memWrite hw, ofNat_eq_ofNat_iff hm hn]
  split <;> rfl

/-- Settles O50: a write in the range is a write of one cell, and an address outside is refused by both accesses. -/
theorem hostMemoryPortReadsAndWritesCells : Obligations.HostMemoryPortReadsAndWritesCells := by
  intro s n v hw
  refine ⟨fun hn => ⟨_, wrap16 v, if_pos hn, ?_, wrap16_toNat v, rfl, fun m hm hne => ?_⟩, fun hn => ?_⟩
  · rw [State.hostRead_memWrite hw hn hn, if_pos rfl]
  · rw [State.hostRead_memWrite hw hm hn, if_neg hne]
  · exact ⟨if_neg (Nat.not_lt.mpr hn), if_neg (Nat.not_lt.mpr hn)⟩

/-- A core number that the system has not has no view. -/
theorem System.view_eq_none {y : System} {k : Nat} (h : y.cores.length ≤ k) : y.view k = none := by
  rw [System.view, List.getElem?_eq_none h, Option.map_none]

/-- Settles O58: only entry `k` of the cores is written. -/
theorem resetOfOneCoreTouchesNoOther : Obligations.ResetOfOneCoreTouchesNoOther := by
  intro y k
  refine ⟨fun hk => ⟨_, if_pos hk, ?_, fun j hj => ?_, rfl, rfl⟩, fun hk => ⟨if_neg (Nat.not_lt.mpr hk), ?_⟩⟩
  · exact List.getElem?_set_self hk
  · exact List.getElem?_set_ne hj.symm
  · simp only [System.stepCore, System.view_eq_none hk]

end Sys2Proof.Machine
end

section
/-! SUPPORT. `run()` (R265-R268): what one step of the loop does for each report, the one-instruction self-loops, and the
pair of steps after which the loop stops. -/

namespace Sys2Proof.Machine

/-! One step of the loop, by what it reports (R261, R265, R267) -/

theorem runFrom_of_fault {s t : State} {r : FaultRecord} (budget n : Nat) (h : step s = .next t)
    (ht : t.report = .fault r) : runFrom (budget + 1) n s = .fault r t := by
  simp only [runFrom, h, ht]

theorem runFrom_of_halted {s t : State} (budget n : Nat) (h : step s = .next t) (ht : t.report = .halted) :
    runFrom (budget + 1) n s = .halted t := by
  simp only [runFrom, h, ht]

theorem runFrom_of_ok {s t : State} (budget n : Nat) (h : step s = .next t) (ht : t.report = .ok) :
    runFrom (budget + 1) n s =
      if stableCount n s t = 2 then .stopped t else runFrom budget (stableCount n s t) t := by
  simp only [runFrom, h, ht]

theorem stableCount_of_stable {s t : State} (n : Nat) (h : Stable s t) : stableCount n s t = n + 1 := if_pos h

theorem stableCount_of_not_stable {s t : State} (n : Nat) (h : ¬ Stable s t) : stableCount n s t = 0 := if_neg h

/-- Settles O54: the report of the status that the step left. -/
theorem runReturnsAtOnceOnHaltOrFault : Obligations.RunReturnsAtOnceOnHaltOrFault := by
  intro budget n s t h
  refine ⟨fun r hr => runFrom_of_fault budget n h ?_, fun hh => runFrom_of_halted budget n h ?_⟩
  · simp only [State.report, hr]
  · simp only [State.report, hh]

/-! The one-instruction self-loops (R91) -/

/-- The next step executes `SUB PC, 1`, or `SET PC, long p` where p is PC itself. -/
structure SelfLoop (s : State) : Prop where
  running : s.cpu.status = .running
  noSkip : s.cpu.skip = false
  word : s.memRead s.cpu.pc = 0x8B83 ∨ (s.memRead s.cpu.pc = 0x7F81 ∧ s.memRead (s.cpu.pc + 1) = s.cpu.pc)

/-- Subtracting 1 from the next Word leads back, from 0x0000 too (R143). -/
theorem subValue_add_one_one (x : Word) : subValue (x + 1) 1 = x := by
  have hone : (1 : Word).toNat = 1 := rfl
  have hx := x.isLt
  apply BitVec.eq_of_toNat_eq
  rw [subValue_toNat, BitVec.toNat_add, hone]
  omega

/-- `SUB PC, 1` executed (R143). -/
theorem exec_sub_pc_one {s : State} (hs : s.cpu.skip = false) :
    exec (.sub .pc (.inline 2)) s = .next ((s.setPc (subValue s.cpu.pc 1)).setEx (subEx s.cpu.pc 1)) := by
  have hr : resolveBoth .pc (.inline 2) s = .resolved (.programCounter, .literal 1) s := rfl
  exact runsHandler_sub.exec_resolved hs hr

/-- `SET PC, long p` executed: PC becomes the operand word (R114, R141). -/
theorem exec_set_pc_litNext {s : State} (hs : s.cpu.skip = false) :
    exec (.set .pc .litNext) s = .next (s.setPc (s.memRead s.cpu.pc)) := by
  have hr : resolveBoth .pc .litNext s =
      .resolved (.programCounter, .literal (s.memRead s.cpu.pc)) (s.setPc (s.cpu.pc + 1)) := rfl
  exact runsHandler_set.exec_resolved hs hr

@[simp] theorem State.setEx_self (s : State) : s.setEx s.cpu.ex = s := rfl

/-- A self-loop's step leads back to the same state, EX apart, which `SUB` writes. -/
theorem SelfLoop.step_eq {s : State} (h : SelfLoop s) : ∃ e, step s = .next (s.setEx e) := by
  obtain ⟨hr, hs, hsub | ⟨hset, hp⟩⟩ := h
  · have hd : decode s.config (s.memRead s.cpu.pc) = .instr (.sub .pc (.inline 2)) := hsub ▸ rfl
    refine ⟨subEx (s.cpu.pc + 1) 1, ?_⟩
    rw [step_of_decode hr hd, exec_sub_pc_one (s := s.afterFetch) hs, State.afterFetch_eq, State.setPc_setPc,
      State.setPc_pc, subValue_add_one_one, State.setPc_self]
  · have hd : decode s.config (s.memRead s.cpu.pc) = .instr (.set .pc .litNext) := hset ▸ rfl
    refine ⟨s.cpu.ex, ?_⟩
    rw [step_of_decode hr hd, exec_set_pc_litNext (s := s.afterFetch) hs, State.afterFetch_eq, State.setPc_setPc,
      State.setPc_memRead, State.setPc_pc, hp, State.setPc_self, State.setEx_self]

/-- A self-loop's step is stable, reports Ok and leads to a self-loop. -/
theorem SelfLoop.step_stable {s : State} (h : SelfLoop s) :
    ∃ t, step s = .next t ∧ t.report = .ok ∧ Stable s t ∧ SelfLoop t := by
  obtain ⟨e, he⟩ := h.step_eq
  refine ⟨_, he, ?_, ⟨rfl, rfl⟩, h.running, h.noSkip, h.word⟩
  simp only [State.report, State.setEx_status, h.running]

/-- Settles O52: two steps of the self-loop, each of which counts. -/
theorem selfJumpStopsRunInTwoSteps : Obligations.SelfJumpStopsRunInTwoSteps := by
  intro s n hr hs hw
  obtain ⟨t, hst, htok, hstable, ht⟩ := SelfLoop.step_stable ⟨hr, hs, hw⟩
  obtain ⟨u, htu, huok, hstable', -⟩ := ht.step_stable
  have hfirst : ∀ budget, run (budget + 1) s = runFrom budget 1 t := fun budget => by
    rw [run, runFrom_of_ok budget 0 hst htok, stableCount_of_stable 0 hstable, if_neg (by decide)]
  refine ⟨⟨u, ?_, hstable'.1.trans hstable.1, hstable'.2.trans hstable.2⟩, t, hfirst 0⟩
  rw [hfirst, runFrom_of_ok n 1 htu huok, stableCount_of_stable 1 hstable', if_pos rfl]

/-! The pair of steps that stops the loop (R265) -/

/-- The first two consecutive stable steps of a run from `s` are its steps `k` and `k + 1`, and lead to `t`; both report
Ok. -/
structure FirstStablePair (k : Nat) (s t : State) : Prop where
  pair : ∃ u v, Steps k s u ∧ step u = .next v ∧ step v = .next t ∧ v.report = .ok ∧ t.report = .ok ∧
    Stable u v ∧ Stable v t
  first : ∀ (j : Nat) (x y z : State), j < k → Steps j s x → step x = .next y → step y = .next z →
    ¬ (Stable x y ∧ Stable y z)

theorem FirstStablePair.zero {s v t : State} (hsv : step s = .next v) (hvt : step v = .next t) (hv : v.report = .ok)
    (ht : t.report = .ok) (h : Stable s v) (h' : Stable v t) : FirstStablePair 0 s t :=
  ⟨⟨s, v, rfl, hsv, hvt, hv, ht, h, h'⟩, fun _ _ _ _ hj => absurd hj (Nat.not_lt_zero _)⟩

/-- One step earlier, where that step and the next are not both stable. -/
theorem FirstStablePair.succ {k : Nat} {s s' t : State} (h : FirstStablePair k s' t) (hs : step s = .next s')
    (hn : ∀ z, step s' = .next z → ¬ (Stable s s' ∧ Stable s' z)) : FirstStablePair (k + 1) s t := by
  obtain ⟨⟨u, v, hu, hrest⟩, hfirst⟩ := h
  refine ⟨⟨u, v, ⟨s', hs, hu⟩, hrest⟩, fun j x y z hj hx hy hz => ?_⟩
  cases j with
  | zero =>
    cases hx
    cases hs.symm.trans hy
    exact hn z hz
  | succ j =>
    obtain ⟨s'', hs'', hx⟩ := hx
    cases hs.symm.trans hs''
    exact hfirst j x y z (Nat.lt_of_succ_lt_succ hj) hx hy hz

/-- A loop that stops has made a step that reports Ok; the counter then was 2, or the loop went on from that step. -/
theorem runFrom_succ_eq_stopped {budget n : Nat} {s t : State} (h : runFrom (budget + 1) n s = .stopped t) :
    ∃ s', step s = .next s' ∧ s'.report = .ok ∧
      ((stableCount n s s' = 2 ∧ s' = t) ∨
        (stableCount n s s' ≠ 2 ∧ runFrom budget (stableCount n s s') s' = .stopped t)) := by
  obtain ⟨s', hs⟩ := step_next s
  refine ⟨s', hs, ?_⟩
  cases hr : s'.report with
  | fault r => cases (runFrom_of_fault budget n hs hr).symm.trans h
  | halted => cases (runFrom_of_halted budget n hs hr).symm.trans h
  | ok =>
    rw [runFrom_of_ok budget n hs hr] at h
    refine ⟨rfl, ?_⟩
    split at h
    · next hc => cases h; exact .inl ⟨hc, rfl⟩
    · next hc => exact .inr ⟨hc, h⟩

/-- How a loop entered with counter 0 or 1 stops: after one stable step, where the counter was 1, or after a first stable
pair of its own; in the second case, entered with counter 1, its first step is not stable. -/
theorem runFrom_eq_stopped {budget n : Nat} {s t : State} (hn : n ≤ 1) (h : runFrom budget n s = .stopped t) :
    (n = 1 ∧ 1 ≤ budget ∧ step s = .next t ∧ t.report = .ok ∧ Stable s t) ∨
    ∃ k, k + 2 ≤ budget ∧ FirstStablePair k s t ∧ (n = 1 → ∀ z, step s = .next z → ¬ Stable s z) := by
  induction budget generalizing n s with
  | zero => cases h
  | succ budget ih =>
    obtain ⟨s', hs, hok, hstop⟩ := runFrom_succ_eq_stopped h
    by_cases hst : Stable s s'
    · rw [stableCount_of_stable n hst] at hstop
      rcases hstop with ⟨hc, rfl⟩ | ⟨hc, h'⟩
      · exact .inl ⟨by omega, by omega, hs, hok, hst⟩
      · obtain rfl : n = 0 := by omega
        rcases ih (Nat.le_refl 1) h' with ⟨-, hb, hs't, htok, hst'⟩ | ⟨k, hk, hpair, hne⟩
        · exact .inr ⟨0, by omega, .zero hs hs't hok htok hst hst', nofun⟩
        · exact .inr ⟨k + 1, by omega, hpair.succ hs fun z hz hboth => hne rfl z hz hboth.2, nofun⟩
    · rw [stableCount_of_not_stable n hst] at hstop
      rcases hstop with ⟨hc, -⟩ | ⟨-, h'⟩
      · cases hc
      · rcases ih (Nat.zero_le 1) h' with ⟨hc, -⟩ | ⟨k, hk, hpair, -⟩
        · cases hc
        · refine .inr ⟨k + 1, by omega, hpair.succ hs fun _ _ hboth => hst hboth.1, fun _ z hz => ?_⟩
          cases hs.symm.trans hz
          exact hst

/-- Settles O53: `run()` enters the loop with counter 0, where it stops only after a first stable pair. -/
theorem runStopsOnlyAfterTwoStableSteps : Obligations.RunStopsOnlyAfterTwoStableSteps := by
  intro budget s t h
  rcases runFrom_eq_stopped (Nat.zero_le 1) h with ⟨hc, -⟩ | ⟨k, hk, hpair, -⟩
  · cases hc
  · obtain ⟨⟨u, v, hu, huv, hvt, hv, ht, hst, hst'⟩, hfirst⟩ := hpair
    exact ⟨k, u, v, hk, hu, huv, hvt, hv, ht, hst, hst', hfirst⟩

end Sys2Proof.Machine
end

section
/-! SUPPORT. The kind of the fault that a step of a Running core takes (R282). -/

namespace Sys2Proof.Machine

/-- The record of the fault that a word with no operation takes has the kind InvalidOpcode (R281). -/
theorem InvalidWordFault.kind {s t : State} {r : FaultRecord} (h : InvalidWordFault s t)
    (ht : t.cpu.status = .faulted r) : r.kind = .invalidOpcode := by
  obtain ⟨n, m, d, -, rfl⟩ := h
  cases ht
  rfl

/-- Settles O38: a step that leaves the core Faulted ran no decoded instruction (O35), and the only other step is the fault of
a word that names no operation. -/
theorem invalidOperandCodeIsUnreachable : Obligations.InvalidOperandCodeIsUnreachable := by
  intro s t r hr h ht
  obtain ⟨-, hfaulted, -⟩ := statusChangesOnlyByHltAndInvalidWords s t hr h
  have hinvalid : ∀ i, decode s.config (s.memRead s.cpu.pc) ≠ .instr i := hfaulted.mp ⟨r, ht⟩
  rcases step_effect hr h with ⟨i, hd, -⟩ | ⟨-, hfault⟩
  · exact absurd hd (hinvalid i)
  · exact hfault.kind ht

end Sys2Proof.Machine
end

section
/-! SUPPORT. `reset()` and `clear()`, each on its own and in either order (R310-R313). -/

namespace Sys2Proof.Machine

/-- Every register is 0 after `reset()`, as in the reset state (R37, R310). -/
@[simp] theorem State.reg_doReset (s : State) (r : Reg) : s.doReset.reg r = 0 := by
  obtain ⟨hreg, -⟩ := resetStateHoldsTheResetValues
  exact hreg r

@[simp] theorem State.memRead_doReset (s : State) (x : Word) : s.doReset.memRead x = s.memRead x := rfl

@[simp] theorem State.memRead_doClear (s : State) (x : Word) : s.doClear.memRead x = 0 := Memory.zero_read x

@[simp] theorem State.doClear_cpu (s : State) : s.doClear.cpu = s.cpu := rfl

theorem State.doReset_doClear (s : State) : s.doReset.doClear = s.doClear.doReset := rfl

/-- A core sees the `clear()` of the shared Memory as one of its own (R312). -/
theorem System.view_doClear (y : System) (k : Nat) : y.doClear.view k = (y.view k).map State.doClear := by
  rw [System.view, System.view, Option.map_map]
  rfl

/-- Settles O46: the general registers, and then the other fields of the core as `Cpu.reset` lists them. -/
theorem resetReinitialisesTheCore : Obligations.ResetReinitialisesTheCore := by
  intro s
  exact ⟨s.reg_doReset, rfl, rfl, rfl, rfl, rfl, rfl, s.doReset_config⟩

/-- Settles O47: the two operations write different parts of the state, and what a core of a system sees after `clear()` is a
cleared state. -/
theorem resetAndClearAreIndependent : Obligations.ResetAndClearAreIndependent := by
  refine ⟨fun s => ⟨s.memRead_doReset, s.memRead_doClear, s.doClear_cpu, s.doReset_doClear⟩, fun y => ⟨rfl, fun k s h => ?_⟩⟩
  rw [System.view_doClear, Option.map_eq_some_iff] at h
  obtain ⟨before, -, rfl⟩ := h
  exact before.memRead_doClear

end Sys2Proof.Machine
end
